-- ==== Sys2Proof/Word.lean ====
section
/-! DEFINITION. The widths of the engine's values (spec/00_scope.md R9, R13; spec/40_bigint.md R110). -/

namespace Sys2Proof

/-- One limb, and one host access: 32 bits (R9 LIMB_BITS, BUS_BITS). -/
abbrev Limb := BitVec 32

/-- A command word: 32 bits (R80). -/
abbrev CmdWord := BitVec 32

/-- The content of one register: a 256-bit unsigned integer of 8 limbs (R13, R21). -/
abbrev Word := BitVec 256

/-- A sum with its carry, and the NAF working value: 257 bits (R110, R201). -/
abbrev WideWord := BitVec 257

/-- A product, or a register pair read as one integer: 512 bits (R23, R110). -/
abbrev DoubleWord := BitVec 512

end Sys2Proof
end

