-- ==== Sys2Proof/Config.lean ====
section
/-! DEFINITION. What is fixed for the engine (spec/00_scope.md R9) and its one open parameter, `BASE` (R10). -/

namespace Sys2Proof.Config

/-- WINDOW: the size of the register window in bytes (R9, R50). -/
def windowSize : Nat := 0x400

/-- NAF_MAX: the greatest number of NAF digits (R9, R202 (d)). -/
def nafMax : Nat := 257

/-- Which multiple of 0x400 the platform put the window at.
R10 leaves it OPEN, so it has no body and no proof can see its value (U11, log entry 8). -/
opaque baseIndex : Nat

/-- `BASE`, the bus address of byte 0 of the register window: a multiple of 0x400 (R10, D4). -/
def base : Nat := windowSize * baseIndex

end Sys2Proof.Config
end

