-- ==== Sys2Proof/Syntax.lean ====
section
/-! DEFINITION. The ten commands of the engine, one constructor per row of spec/opcode_table.json
(spec/30_encoding.md R83, R85, R86). -/

namespace Sys2Proof

/-- A specifier: a register number 0 to 15 (R82). -/
abbrev RegNum := Fin 16

/-- A command with its specifiers in the order `rd, ra, rb`; an unused specifier is left out (R83, R96).
Whether a specifier names a single register, a pair or a triple is the command's shape (R83). -/
inductive Instr where
  /-- `bigint_add_256 wd, wa, wb`: single, single, single (R118). -/
  | bigintAdd256 (rd ra rb : RegNum)
  /-- `bigint_mult_256 wd, wa, wb`: pair, single, single (R119). -/
  | bigintMult256 (rd ra rb : RegNum)
  /-- `p256_mod_reduce wd, wa`: single, pair (R155). -/
  | p256ModReduce (rd ra : RegNum)
  /-- `p256_fieldadd wd, wa, wb`: single, single, single (R156). -/
  | p256FieldAdd (rd ra rb : RegNum)
  /-- `p256_fieldmult wd, wa, wb`: single, single, single (R157). -/
  | p256FieldMult (rd ra rb : RegNum)
  /-- `p256_fieldinvert wd, wa`: single, single (R158). -/
  | p256FieldInvert (rd ra : RegNum)
  /-- `p256_point_double wd, wa`: triple, triple (R186). -/
  | p256PointDouble (rd ra : RegNum)
  /-- `p256_point_add_mixed wd, wa, wb`: triple, triple, triple (R190). -/
  | p256PointAddMixed (rd ra rb : RegNum)
  /-- `p256_scalar_mult_naf wd, wa, wb`: pair, single, pair (R206). -/
  | p256ScalarMultNaf (rd ra rb : RegNum)
  /-- `p256_point_validate wa`: pair, no destination register (R221). -/
  | p256PointValidate (ra : RegNum)
  deriving DecidableEq, Repr

end Sys2Proof
end

