-- ==== Sys2Proof/WellFormed.lean ====
section
/-! DEFINITION. Which commands have legal specifiers: the range checks 4 and 5 of `Legal(w)`
(spec/30_encoding.md R90). Checks 1 to 3 are about words and stand in Decode.lean. -/

namespace Sys2Proof

/-- A pair never wraps: its base is at most 14 (spec/10_state.md R23, R90 check 4). -/
def RegNum.isPairBase (n : RegNum) : Bool := decide (n.val ≤ 14)

/-- A triple never wraps: its base is at most 13 (spec/10_state.md R24, R90 check 5). -/
def RegNum.isTripleBase (n : RegNum) : Bool := decide (n.val ≤ 13)

/-- Every specifier marked P or T in R83 is in range. Overlap is never illegal (R90, R266, R267). -/
def Instr.wf : Instr → Bool
  | .bigintAdd256 _ _ _ => true
  | .bigintMult256 rd _ _ => RegNum.isPairBase rd
  | .p256ModReduce _ ra => RegNum.isPairBase ra
  | .p256FieldAdd _ _ _ => true
  | .p256FieldMult _ _ _ => true
  | .p256FieldInvert _ _ => true
  | .p256PointDouble rd ra => RegNum.isTripleBase rd && RegNum.isTripleBase ra
  | .p256PointAddMixed rd ra rb => RegNum.isTripleBase rd && RegNum.isTripleBase ra && RegNum.isTripleBase rb
  | .p256ScalarMultNaf rd _ rb => RegNum.isPairBase rd && RegNum.isPairBase rb
  | .p256PointValidate ra => RegNum.isPairBase ra

end Sys2Proof
end

