-- ==== Sys2Proof/Decode.lean ====
section
/-! DEFINITION. The command word: its fields, the decoder (`Legal(w)` and the row it selects), the encoder,
and the assembler spelling (spec/30_encoding.md). -/

namespace Sys2Proof

/-- `op = w[31:24]` (R81). -/
def opField (w : CmdWord) : BitVec 8 := w.extractLsb' 24 8

/-- The specifier whose lowest bit is bit `lo` of the word: 4 bits, an unsigned number (R81, R82, R84). -/
def specifier (w : CmdWord) (lo : Nat) : RegNum := (w.extractLsb' lo 4).toFin

/-- `rd = w[23:20]` (R81). -/
def rdField (w : CmdWord) : RegNum := specifier w 20

/-- `ra = w[19:16]` (R81). -/
def raField (w : CmdWord) : RegNum := specifier w 16

/-- `rb = w[15:12]` (R81). -/
def rbField (w : CmdWord) : RegNum := specifier w 12

/-- `zero = w[11:0]` (R81). -/
def zeroField (w : CmdWord) : BitVec 12 := w.extractLsb' 0 12

/-- Why a word is illegal, in the order of the checks of R90. Every reason raises the same fault. -/
inductive DecodeError where
  /-- Check 1: `op` is 0x00 or 0x0B to 0xFF (R87). -/
  | reservedOpcode
  /-- Check 2: bits 11:0 are not zero (R88). -/
  | zeroFieldSet
  /-- Check 3: an unused specifier is not zero (R88). -/
  | unusedSpecifierSet
  /-- Check 4: a pair base is 15 (R23). -/
  | pairBaseOutOfRange
  /-- Check 5: a triple base is 14 or 15 (R24). -/
  | tripleBaseOutOfRange
  deriving DecidableEq, Repr

/-- How a command uses a specifier field of the word (R82, R83). -/
inductive Shape where
  /-- S: one register. -/
  | single
  /-- P: a pair at the base the field holds. -/
  | pair
  /-- T: a triple at the base the field holds. -/
  | triple
  /-- 0: unused, must be zero. -/
  | unused
  deriving DecidableEq, Repr

/-- One row of the table of R83: the shapes of `rd`, `ra` and `rb`. -/
structure Row where
  rd : Shape
  ra : Shape
  rb : Shape
  deriving DecidableEq, Repr

/-- The rows of R83 by opcode; the 246 other opcodes are reserved (R85, R87). -/
def rowOf (op : BitVec 8) : Option Row :=
  if op = 0x01#8 then some ⟨.single, .single, .single⟩
  else if op = 0x02#8 then some ⟨.pair, .single, .single⟩
  else if op = 0x03#8 then some ⟨.single, .pair, .unused⟩
  else if op = 0x04#8 then some ⟨.single, .single, .single⟩
  else if op = 0x05#8 then some ⟨.single, .single, .single⟩
  else if op = 0x06#8 then some ⟨.single, .single, .unused⟩
  else if op = 0x07#8 then some ⟨.triple, .triple, .unused⟩
  else if op = 0x08#8 then some ⟨.triple, .triple, .triple⟩
  else if op = 0x09#8 then some ⟨.pair, .single, .pair⟩
  else if op = 0x0A#8 then some ⟨.unused, .pair, .unused⟩
  else none

/-- Check 3 of R90 for one field. -/
def Shape.unusedOk (sh : Shape) (n : RegNum) : Bool :=
  match sh with
  | .unused => decide (n = 0)
  | _ => true

/-- Check 4 of R90 for one field. -/
def Shape.pairOk (sh : Shape) (n : RegNum) : Bool :=
  match sh with
  | .pair => RegNum.isPairBase n
  | _ => true

/-- Check 5 of R90 for one field. -/
def Shape.tripleOk (sh : Shape) (n : RegNum) : Bool :=
  match sh with
  | .triple => RegNum.isTripleBase n
  | _ => true

/-- One of the checks 3 to 5 on all three specifiers of the word. -/
def Row.all (r : Row) (check : Shape → RegNum → Bool) (w : CmdWord) : Bool :=
  check r.rd (rdField w) && check r.ra (raField w) && check r.rb (rbField w)

/-- `Legal(w)`: the five checks of R90 in their order; `none` says the word is legal. -/
def illegality (w : CmdWord) : Option DecodeError :=
  match rowOf (opField w) with
  | none => some .reservedOpcode
  | some r =>
    if zeroField w ≠ 0 then some .zeroFieldSet
    else if !r.all Shape.unusedOk w then some .unusedSpecifierSet
    else if !r.all Shape.pairOk w then some .pairBaseOutOfRange
    else if !r.all Shape.tripleOk w then some .tripleBaseOutOfRange
    else none

/-- The command an opcode selects, with the specifiers it uses (R83, R85). -/
def select (op : BitVec 8) (rd ra rb : RegNum) : Option Instr :=
  if op = 0x01#8 then some (.bigintAdd256 rd ra rb)
  else if op = 0x02#8 then some (.bigintMult256 rd ra rb)
  else if op = 0x03#8 then some (.p256ModReduce rd ra)
  else if op = 0x04#8 then some (.p256FieldAdd rd ra rb)
  else if op = 0x05#8 then some (.p256FieldMult rd ra rb)
  else if op = 0x06#8 then some (.p256FieldInvert rd ra)
  else if op = 0x07#8 then some (.p256PointDouble rd ra)
  else if op = 0x08#8 then some (.p256PointAddMixed rd ra rb)
  else if op = 0x09#8 then some (.p256ScalarMultNaf rd ra rb)
  else if op = 0x0A#8 then some (.p256PointValidate ra)
  else none

/-- The decoder: total on every 32-bit word, refusing an illegal word by the first check that fails (R90, R91). -/
def decode (w : CmdWord) : Except DecodeError Instr :=
  match illegality w with
  | some e => .error e
  | none =>
    match select (opField w) (rdField w) (raField w) (rbField w) with
    | some i => .ok i
    | none => .error .reservedOpcode

/-- One word of the single format of R81, with the `zero` field zero. -/
def wordOf (op : BitVec 8) (rd ra rb : RegNum) : CmdWord :=
  op ++ BitVec.ofFin (w := 4) rd ++ BitVec.ofFin (w := 4) ra ++ BitVec.ofFin (w := 4) rb ++ 0#12

/-- The encoder: the word of each form of R96. -/
def encode : Instr → CmdWord
  | .bigintAdd256 rd ra rb => wordOf 0x01 rd ra rb
  | .bigintMult256 rd ra rb => wordOf 0x02 rd ra rb
  | .p256ModReduce rd ra => wordOf 0x03 rd ra 0
  | .p256FieldAdd rd ra rb => wordOf 0x04 rd ra rb
  | .p256FieldMult rd ra rb => wordOf 0x05 rd ra rb
  | .p256FieldInvert rd ra => wordOf 0x06 rd ra 0
  | .p256PointDouble rd ra => wordOf 0x07 rd ra 0
  | .p256PointAddMixed rd ra rb => wordOf 0x08 rd ra rb
  | .p256ScalarMultNaf rd ra rb => wordOf 0x09 rd ra rb
  | .p256PointValidate ra => wordOf 0x0A 0 ra 0

/-- The `match` column of R83. -/
def matchWord : Instr → CmdWord
  | .bigintAdd256 _ _ _ => 0x01000000
  | .bigintMult256 _ _ _ => 0x02000000
  | .p256ModReduce _ _ => 0x03000000
  | .p256FieldAdd _ _ _ => 0x04000000
  | .p256FieldMult _ _ _ => 0x05000000
  | .p256FieldInvert _ _ => 0x06000000
  | .p256PointDouble _ _ => 0x07000000
  | .p256PointAddMixed _ _ _ => 0x08000000
  | .p256ScalarMultNaf _ _ _ => 0x09000000
  | .p256PointValidate _ => 0x0A000000

/-- The `mask` column of R83. -/
def maskWord : Instr → CmdWord
  | .bigintAdd256 _ _ _ => 0xFF000FFF
  | .bigintMult256 _ _ _ => 0xFF000FFF
  | .p256ModReduce _ _ => 0xFF00FFFF
  | .p256FieldAdd _ _ _ => 0xFF000FFF
  | .p256FieldMult _ _ _ => 0xFF000FFF
  | .p256FieldInvert _ _ => 0xFF00FFFF
  | .p256PointDouble _ _ => 0xFF00FFFF
  | .p256PointAddMixed _ _ _ => 0xFF000FFF
  | .p256ScalarMultNaf _ _ _ => 0xFF000FFF
  | .p256PointValidate _ => 0xFFF0FFFF

/-- The command a table row's word decodes to, its bits numbered as spec/opcode_table.json numbers them.
A command is one 32-bit word (R80), so bits above bit 31 name no command (log entry 16). -/
def decodeTableWord (nbits w : Nat) : Option Instr :=
  let v := w % 2 ^ nbits
  if v < 2 ^ 32 then
    match decode (BitVec.ofNat 32 v) with
    | .ok i => some i
    | .error _ => none
  else none

/-- The mnemonic in lower case, as R83 and R96 write it. -/
def Instr.mnemonic : Instr → String
  | .bigintAdd256 _ _ _ => "bigint_add_256"
  | .bigintMult256 _ _ _ => "bigint_mult_256"
  | .p256ModReduce _ _ => "p256_mod_reduce"
  | .p256FieldAdd _ _ _ => "p256_fieldadd"
  | .p256FieldMult _ _ _ => "p256_fieldmult"
  | .p256FieldInvert _ _ => "p256_fieldinvert"
  | .p256PointDouble _ _ => "p256_point_double"
  | .p256PointAddMixed _ _ _ => "p256_point_add_mixed"
  | .p256ScalarMultNaf _ _ _ => "p256_scalar_mult_naf"
  | .p256PointValidate _ => "p256_point_validate"

/-- The operands in the order `rd, ra, rb`, unused fields left out (R96). -/
def Instr.operands : Instr → List RegNum
  | .bigintAdd256 rd ra rb => [rd, ra, rb]
  | .bigintMult256 rd ra rb => [rd, ra, rb]
  | .p256ModReduce rd ra => [rd, ra]
  | .p256FieldAdd rd ra rb => [rd, ra, rb]
  | .p256FieldMult rd ra rb => [rd, ra, rb]
  | .p256FieldInvert rd ra => [rd, ra]
  | .p256PointDouble rd ra => [rd, ra]
  | .p256PointAddMixed rd ra rb => [rd, ra, rb]
  | .p256ScalarMultNaf rd ra rb => [rd, ra, rb]
  | .p256PointValidate ra => [ra]

/-- The assembler spelling `mnemonic operand, operand, operand`, a register written `w<n>` in decimal (R96). -/
def Instr.asm (i : Instr) : String :=
  i.mnemonic ++ " " ++ ", ".intercalate (i.operands.map fun n => "w" ++ toString n.val)

end Sys2Proof
end

