-- ==== Sys2Proof/Machine/Constants.lean ====
section
/-! DEFINITION. The constants the engine holds (spec/10_state.md R33, R37; spec/41_field.md R140, R141). -/

namespace Sys2Proof.Machine

/-- The field prime `P = 2^256 - 2^224 + 2^192 + 2^96 - 1` (R140). -/
def primeP : Nat := 0xFFFFFFFF00000001000000000000000000000000FFFFFFFFFFFFFFFFFFFFFFFF

/-- The curve coefficient `B` (R141). -/
def coeffB : Word := 0x5AC635D8AA3A93E7B3EBBD55769886BC651D06B0CC53B0F63BCE3C3E27D2604B

/-- `ID`, the ASCII bytes "P256" (R33). -/
def idWord : BitVec 32 := 0x50323536

end Sys2Proof.Machine
end

