-- ==== Sys2Proof/Machine/State.lean ====
section
/-! DEFINITION. The state of the engine (spec/10_state.md R20), the platform's reset input (R260), the host's
accesses and what they answered (R18, R26, R40), the reasons a step can stop, and the state after reset (R39). -/

namespace Sys2Proof.Machine

/-- The four flags of STATUS (R27 bits 3:0). -/
structure Flags where
  /-- Carry out of the last `bigint_add_256` (R28). -/
  c : Bool
  /-- Verdict of the last `p256_point_validate` (R29). -/
  v : Bool
  /-- The last point result is the point at infinity (R31). -/
  inf : Bool
  /-- Some field-element operand of the last command was not canonical (R30). -/
  nc : Bool
  deriving DecidableEq, Repr

/-- The complete architectural state of the engine: "Nothing else is state" (R20). -/
structure Engine where
  /-- `W[0]` to `W[15]` (R21). -/
  w : Vector Word 16
  /-- C, V, INF, NC of STATUS (R27). -/
  flags : Flags
  /-- `STATUS.ERR`, bits 11:8 (R27, R32): 0 when not faulted, else the code of the first fault (R231). -/
  err : BitVec 4
  /-- `LASTCMD`, the last accepted command word (R34). -/
  lastCmd : CmdWord
  deriving DecidableEq, Repr

/-- The width of a host read: a legal one moves 32 bits, the others get a bus error (R57). -/
inductive BusWidth where
  | w8
  | w16
  | w32
  | w64
  deriving DecidableEq, Repr

/-- The datum of a host write, by its width (R57). -/
inductive BusData where
  | b8 (v : BitVec 8)
  | b16 (v : BitVec 16)
  | b32 (v : BitVec 32)
  | b64 (v : BitVec 64)
  deriving DecidableEq, Repr

/-- One host access, without its address (R50). -/
inductive Access where
  | read (width : BusWidth)
  | write (data : BusData)
  deriving DecidableEq, Repr

/-- One thing the outside world does to the engine. -/
inductive HostEvent where
  /-- An access at a byte offset of the register window: `RegRead`, `RegWrite` (R52, R53). -/
  | window (off : Nat) (a : Access)
  /-- An access at a bus address: `MemRead(BASE+off, n)`, `MemWrite(BASE+off, n, v)` (R14). -/
  | bus (addr : Nat) (a : Access)
  /-- The platform drives the one reset input (R260). -/
  | resetLine (asserted : Bool)
  deriving DecidableEq, Repr

/-- What one performed access gives back to the host (R40). -/
inductive Response where
  /-- A legal read returns one 32-bit word (R52). -/
  | value (v : BitVec 32)
  /-- A legal write is complete (R53, R60). -/
  | written
  /-- The bus error response of R57, and of an access while the reset input is asserted (U25). -/
  | busError
  /-- The access is outside the window, so it is not addressed to the engine (R240). -/
  | notAddressed
  deriving DecidableEq, Repr

/-- The whole machine. `engine` is the spec's state; the other fields hold what is around it. -/
structure State where
  /-- The architectural state (R20). -/
  engine : Engine
  /-- The level of the reset input: true while the platform asserts it (R260; log entry 7). -/
  inReset : Bool
  /-- The host's events that are not performed yet, the next one first: "its program text is the host's list of
  accesses" (R26; log entry 2). -/
  host : List HostEvent
  /-- What the performed accesses answered, the oldest first (R40; log entry 2). -/
  log : List Response
  deriving DecidableEq, Repr

/-- Reasons for which the model stops with a fault: there is none.
The spec gives both faults of the engine an effect the machine goes on from (R233, R234), so ILLEGAL_CMD and INV_ZERO are
NEXT states, and so are a bus error (R57) and an access outside the window (R240).
Nobody raises a value of this type; that is safe and unsafe for no claim, since it has no value (log entry 9). -/
inductive Fault : Type
  deriving DecidableEq, Repr

/-- Reasons for which the model has no meaning for a step. -/
inductive Refusal where
  /-- Raised by `exec` in the arm of a command that has no meaning yet; safe. No arm raises it: all ten are modelled. -/
  | notModelled (mnemonic : String)
  deriving DecidableEq, Repr

/-- All four flags 0 (R36, R39). -/
def Flags.none : Flags := ⟨false, false, false, false⟩

/-- The reset values of R39: every register 0, STATUS 0, LASTCMD 0. -/
def Engine.reset : Engine :=
  { w := Vector.replicate 16 0
    flags := Flags.none
    err := 0
    lastCmd := 0 }

/-- The machine right after reset: the engine as R39 says, the reset input released (R260), no access performed and
none pending (log entry 2). -/
def State.reset : State :=
  { engine := Engine.reset
    inReset := false
    host := []
    log := [] }

end Sys2Proof.Machine
end

