-- ==== Sys2Proof/Machine/Ops.lean ====
section
/-! DEFINITION. The operations every command shares: limbs, reading and writing registers, completing a command,
raising a fault, and the reset that is the only way out of the faulted state. -/

namespace Sys2Proof.Machine

/-! ### Limbs (R13, R22) -/

/-- Limb j of a register: bits `32*j+31` to `32*j` (R13, R22). -/
def limb (v : Word) (j : Nat) : Limb := v.extractLsb' (32 * j) 32

/-- The register with limb j replaced and its other limbs unchanged (R53, R54). -/
def setLimb (v : Word) (j : Nat) (x : Limb) : Word :=
  (v &&& ~~~(BitVec.setWidth 256 (BitVec.allOnes 32) <<< (32 * j))) ||| (x.setWidth 256 <<< (32 * j))

/-! ### The register file (R21) -/

/-- `W[n]` (R14). All 16 registers are alike: none is hard-wired (R21). -/
def Engine.reg (e : Engine) (n : RegNum) : Word := e.w[n]

/-- `W[n] <- v` (R14). -/
def Engine.setReg (e : Engine) (n : RegNum) (v : Word) : Engine := { e with w := e.w.set n v }

/-- The writes of a command's destination registers, all together (R268). -/
def Engine.writeAll (e : Engine) (writes : List (RegNum × Word)) : Engine :=
  writes.foldl (fun e w => e.setReg w.1 w.2) e

/-- The destination writes of a pair at base `rd` (R23). -/
def pairWrites (rd : RegNum) (lo hi : Word) : List (RegNum × Word) := [(rd, lo), (rd + 1, hi)]

/-- The destination writes of a triple at base `rd` (R24). -/
def tripleWrites (rd : RegNum) (x y z : Word) : List (RegNum × Word) := [(rd, x), (rd + 1, y), (rd + 2, z)]

/-! ### How a command ends (R36, R89, R233, R268) -/

/-- A command COMPLETES: all destination registers are written and all four flags, nothing else (R36, R89, R268). -/
def State.complete (s : State) (writes : List (RegNum × Word)) (f : Flags) : State :=
  { s with engine := { s.engine.writeAll writes with flags := f } }

/-- The two fault causes of R231. -/
inductive FaultCode where
  /-- A word that is not a legal command (R90). -/
  | illegalCmd
  /-- `p256_fieldinvert` of a value that is 0 modulo P (R158). -/
  | invZero
  deriving DecidableEq, Repr

/-- The code a fault records in `STATUS.ERR` (R231); 3 to 15 are never produced (U5). -/
def FaultCode.code : FaultCode → BitVec 4
  | .illegalCmd => 1
  | .invZero => 2

/-- `raise Fault(code)` (R233): ERR takes the code and nothing else changes, LASTCMD holding the word already.
No state is saved and no control goes anywhere, so this is the whole of taking the engine's exception. -/
def State.raise (s : State) (f : FaultCode) : State :=
  { s with engine := { s.engine with err := f.code } }

/-- Whether the engine is faulted: `STATUS.ERR != 0` (R32, R234). -/
def Engine.faulted (e : Engine) : Bool := decide (e.err ≠ 0)

/-- `SoftReset()` (R261), and the end of a hardware reset (R260): all state of R20 takes its reset value.
It is the only return from the faulted state, and it restores nothing (R235).
The host's list and the log are outside the engine and stay (log entry 2). -/
def State.resetEngine (s : State) : State := { s with engine := Engine.reset }

/-- The first line of `Execute(w)`: a command whose specifiers are out of range raises ILLEGAL_CMD (R89, R90 checks 4
and 5), before any operand value matters (R236); otherwise the command runs to the state given.
`decode` refuses such a word already; for a command term that no word decodes to, the meaning says so itself (log entry 10). -/
def State.runLegal (s : State) (i : Instr) (after : State) : Host.Outcome State Fault Refusal :=
  if i.wf then .next after else .next (s.raise .illegalCmd)

end Sys2Proof.Machine
end

