-- ==== Sys2Proof/Machine/Flags.lean ====
section
/-! DEFINITION. The flags each command produces (spec/10_state.md R28 to R31, R36) and the status word (R27).
A completed command writes all four flags: the ones its rule produces, the others 0 (R36). -/

namespace Sys2Proof.Machine

/-- `bigint_add_256`: C is the carry (R28, R118). -/
def Flags.ofCarry (c : Bool) : Flags := { c := c, v := false, inf := false, nc := false }

/-- The field commands: NC only (R30). -/
def Flags.ofField (nc : Bool) : Flags := { c := false, v := false, inf := false, nc := nc }

/-- The point commands and the scalar multiplication: INF and NC (R30, R31). -/
def Flags.ofPoint (inf nc : Bool) : Flags := { c := false, v := false, inf := inf, nc := nc }

/-- `p256_point_validate`: V and NC (R29, R30). -/
def Flags.ofVerdict (v nc : Bool) : Flags := { c := false, v := v, inf := false, nc := nc }

/-- The 32-bit word read at offset 0x204: C, V, INF, NC in bits 0 to 3, ERR in bits 11:8, reserved bits 0 (R27, U6). -/
def Engine.statusWord (e : Engine) : BitVec 32 :=
  0#20 ++ e.err ++ 0#4 ++ BitVec.ofBool e.flags.nc ++ BitVec.ofBool e.flags.inf ++ BitVec.ofBool e.flags.v
    ++ BitVec.ofBool e.flags.c

end Sys2Proof.Machine
end

