-- ==== Sys2Proof/Machine/Operands.lean ====
section
/-! DEFINITION. The operand forms (spec/10_state.md R21 to R25; spec/41_field.md R143, R144): a single register as a
plain integer or as a field element, a pair as a 512-bit integer or an affine point, a triple as a Jacobian point. -/

namespace Sys2Proof.Machine

/-- An affine point (R23). -/
structure Affine where
  x : Word
  y : Word
  deriving DecidableEq, Repr

/-- A Jacobian point (R24, R180). -/
structure Jacobian where
  x : Word
  y : Word
  z : Word
  deriving DecidableEq, Repr

/-- The value is in `[0, P)` (R15, R25). -/
def isCanonical (v : Word) : Bool := decide (v.toNat < primeP)

/-- `canon(v)`: one conditional subtraction of P (R143). -/
def canon (v : Word) : Word := if v.toNat < primeP then v else BitVec.ofNat 256 (v.toNat - primeP)

/-- The low 256 bits of a 512-bit value (R23). -/
def lowHalf (t : DoubleWord) : Word := t.extractLsb' 0 256

/-- The high 256 bits of a 512-bit value (R23). -/
def highHalf (t : DoubleWord) : Word := t.extractLsb' 256 256

/-- A single register read as a plain 256-bit integer (R21). -/
def Engine.single (e : Engine) (n : RegNum) : Word := e.reg n

/-- A single register read as a field element, canonicalised (R144). -/
def Engine.field (e : Engine) (n : RegNum) : Word := canon (e.reg n)

/-- `W2[n]`: a pair read as a 512-bit integer, low half in the lower-numbered register (R23). -/
def Engine.pairInt (e : Engine) (n : RegNum) : DoubleWord := e.reg (n + 1) ++ e.reg n

/-- A pair read as an affine point, both coordinates canonicalised (R23, R144). -/
def Engine.affine (e : Engine) (n : RegNum) : Affine := ⟨e.field n, e.field (n + 1)⟩

/-- `W3[n]`: a triple read as a Jacobian point, all coordinates canonicalised (R24, R144). -/
def Engine.jacobian (e : Engine) (n : RegNum) : Jacobian := ⟨e.field n, e.field (n + 1), e.field (n + 2)⟩

/-- NC of one field-element register: as read from the register file it is `>= P` (R30). -/
def Engine.ncSingle (e : Engine) (n : RegNum) : Bool := !isCanonical (e.reg n)

/-- NC of a pair of field elements (R30). -/
def Engine.ncPair (e : Engine) (n : RegNum) : Bool := e.ncSingle n || e.ncSingle (n + 1)

/-- NC of a triple of field elements (R30). -/
def Engine.ncTriple (e : Engine) (n : RegNum) : Bool := e.ncSingle n || e.ncSingle (n + 1) || e.ncSingle (n + 2)

end Sys2Proof.Machine
end

