-- ==== Sys2Proof/Machine/BigInt.lean ====
section
/-! DEFINITION. The big-integer functions and the two integer commands (spec/40_bigint.md). -/

namespace Sys2Proof.Machine

/-! ### Internal functions (R111 to R117, R120) -/

/-- `isZero(v)`: every bit of v is 0 (R111). -/
def isZero {n : Nat} (v : BitVec n) : Bool := decide (v = 0#n)

/-- `compare(u, v)`: -1, 0 or +1 as u is below, equal to or above v, both unsigned (R112). -/
def compareUnsigned (u v : Word) : Int :=
  if u.toNat < v.toNat then -1 else if u.toNat = v.toNat then 0 else 1

/-- `copy(v)` (R113). -/
def copy (v : Word) : Word := v

/-- `add(u, v)`: the low 256 bits of the 257-bit sum, and bit 256 (R114). -/
def add (u v : Word) : Word × Bool :=
  let t : WideWord := u.setWidth 257 + v.setWidth 257
  (t.setWidth 256, t.getLsbD 256)

/-- `subtractWithBorrow(u, v)`: the difference modulo 2^256, and whether u is below v (R115). -/
def subtractWithBorrow (u v : Word) : Word × Bool := (u - v, decide (u.toNat < v.toNat))

/-- `rightShiftOne(v)`: a logical shift by one bit (R116). -/
def rightShiftOne {n : Nat} (v : BitVec n) : BitVec n := v >>> 1

/-- `mostSignificantBitLength(v)`: 0 for 0, else one more than the index of the highest set bit (R117). -/
def mostSignificantBitLength {n : Nat} (v : BitVec n) : Nat :=
  if v.toNat = 0 then 0 else Nat.log2 v.toNat + 1

/-- `mul(u, v)`: the exact 512-bit product (R120). -/
def mul (u v : Word) : DoubleWord := BitVec.ofNat 512 (u.toNat * v.toNat)

/-- `sqr(u) = mul(u, u)` (R120). -/
def sqr (u : Word) : DoubleWord := mul u u

/-! ### The limb view of the same functions (R114, R120)

They describe `add` and `mul` limb by limb; the statements say that both views agree. -/

/-- `carry_j` of R114: the carry into limb j of the sum. -/
def addCarryInto (u v : Word) : Nat → Nat
  | 0 => 0
  | j + 1 => ((limb u j).toNat + (limb v j).toNat + addCarryInto u v j) / 2 ^ 32

/-- The column sum of R120 for limb k, over the pairs i + j = k with both limb numbers in 0 to 7. -/
def mulColumn (u v : Word) (k : Nat) : Nat :=
  ((List.range 8).map fun i =>
    if i ≤ k ∧ k - i < 8 then (limb u i).toNat * (limb v (k - i)).toNat else 0).sum

/-- The carry into column k of R120, of any size. -/
def mulCarryInto (u v : Word) : Nat → Nat
  | 0 => 0
  | k + 1 => (mulColumn u v k + mulCarryInto u v k) / 2 ^ 32

/-! ### Commands -/

/-- `bigint_add_256 wd, wa, wb` (R118): the sum, with C = its bit 256. -/
def execBigintAdd256 (rd ra rb : RegNum) (s : State) : Host.Outcome State Fault Refusal :=
  let r := add (s.engine.single ra) (s.engine.single rb)
  s.runLegal (.bigintAdd256 rd ra rb) (s.complete [(rd, r.1)] (Flags.ofCarry r.2))

/-- `bigint_mult_256 wd, wa, wb` (R119): the product in the pair at `rd`, low half first. -/
def execBigintMult256 (rd ra rb : RegNum) (s : State) : Host.Outcome State Fault Refusal :=
  let t := mul (s.engine.single ra) (s.engine.single rb)
  s.runLegal (.bigintMult256 rd ra rb) (s.complete (pairWrites rd (lowHalf t) (highHalf t)) Flags.none)

end Sys2Proof.Machine
end

