-- ==== Sys2Proof/Machine/Field.lean ====
section
/-! DEFINITION. Field arithmetic modulo P and the four field commands (spec/41_field.md). -/

namespace Sys2Proof.Machine

/-! ### Internal field functions (R145 to R153) -/

/-- The one conditional subtraction of P that ends `addMod` and `doubleMod` (R145, R147), on a 257-bit value. -/
def subtractPOnce (t : WideWord) : Word :=
  if t.toNat < primeP then t.setWidth 256 else BitVec.ofNat 256 (t.toNat - primeP)

/-- `addMod(a, b)` on canonical a, b: the 257-bit sum with its carry, corrected once (R145). -/
def addMod (a b : Word) : Word :=
  let r := add a b
  subtractPOnce (BitVec.ofBool r.2 ++ r.1)

/-- `subMod(a, b)` on canonical a, b: P is added back when there is a borrow (R146). -/
def subMod (a b : Word) : Word :=
  let r := subtractWithBorrow a b
  if r.2 then r.1 + BitVec.ofNat 256 primeP else r.1

/-- `doubleMod(a)` on canonical a: a 257-bit left shift by one, corrected once (R147). -/
def doubleMod (a : Word) : Word := subtractPOnce (a.setWidth 257 <<< 1)

/-- `reduce(T) = T mod P` for every 512-bit T (R153). -/
def reduce (t : DoubleWord) : Word := BitVec.ofNat 256 (t.toNat % primeP)

/-- `mulMod(a, b) = reduce(mul(a, b))` (R148). -/
def mulMod (a b : Word) : Word := reduce (mul a b)

/-- `sqrMod(a) = mulMod(a, a)` (R149). -/
def sqrMod (a : Word) : Word := mulMod a a

/-- `a^e mod P` by repeated `mulMod`, for an exponent of at most `bits` bits. -/
def powMod (a : Word) : Nat → Nat → Word
  | 0, _ => 1
  | bits + 1, e =>
    let r := sqrMod (powMod a bits (e / 2))
    if e % 2 = 1 then mulMod r a else r

/-- `invMod(a) = a^(P-2) mod P` (R150). Nothing evaluates it at 0: `p256_fieldinvert` faults first (R158) and
`scalarMult` tests for infinity first (R205) (log entry 11). -/
def invMod (a : Word) : Word := powMod a 256 (primeP - 2)

/-- `times2(a)` (R152). -/
def times2 (a : Word) : Word := doubleMod a

/-- `times3(a)` (R152). -/
def times3 (a : Word) : Word := addMod (doubleMod a) a

/-- `times4(a)` (R152). -/
def times4 (a : Word) : Word := doubleMod (doubleMod a)

/-- `times8(a)` (R152). -/
def times8 (a : Word) : Word := doubleMod (times4 a)

/-! ### The informative fast reduction (R154)

No command uses it: R153 governs. It stands here so that its agreement with `reduce` can be stated. -/

/-- Limb k of a 512-bit value (R13). -/
def wideLimb (t : DoubleWord) (k : Nat) : Nat := (t.extractLsb' (32 * k) 32).toNat

/-- A 256-bit value from its limbs, written from limb 7 down to limb 0 as R154 writes them. -/
def ofLimbs (l7 l6 l5 l4 l3 l2 l1 l0 : Nat) : Int :=
  l0 + l1 * 2 ^ 32 + l2 * 2 ^ 64 + l3 * 2 ^ 96 + l4 * 2 ^ 128 + l5 * 2 ^ 160 + l6 * 2 ^ 192 + l7 * 2 ^ 224

/-- `r' = s1 + 2*s2 + 2*s3 + s4 + s5 - s6 - s7 - s8 - s9`, a signed integer (R154). -/
def foldedSum (t : DoubleWord) : Int :=
  let c := wideLimb t
  let s1 := ofLimbs (c 7) (c 6) (c 5) (c 4) (c 3) (c 2) (c 1) (c 0)
  let s2 := ofLimbs (c 15) (c 14) (c 13) (c 12) (c 11) 0 0 0
  let s3 := ofLimbs 0 (c 15) (c 14) (c 13) (c 12) 0 0 0
  let s4 := ofLimbs (c 15) (c 14) 0 0 0 (c 10) (c 9) (c 8)
  let s5 := ofLimbs (c 8) (c 13) (c 15) (c 14) (c 13) (c 11) (c 10) (c 9)
  let s6 := ofLimbs (c 10) (c 8) 0 0 0 (c 13) (c 12) (c 11)
  let s7 := ofLimbs (c 11) (c 9) 0 0 (c 15) (c 14) (c 13) (c 12)
  let s8 := ofLimbs (c 12) 0 (c 10) (c 9) (c 8) (c 15) (c 14) (c 13)
  let s9 := ofLimbs (c 13) 0 (c 11) (c 10) (c 9) 0 (c 15) (c 14)
  s1 + 2 * s2 + 2 * s3 + s4 + s5 - s6 - s7 - s8 - s9

/-- The fast reduction of R154: `reduce(T) = r' mod P` (log entry 15 on how many corrections of P that takes). -/
def fastReduce (t : DoubleWord) : Word := BitVec.ofInt 256 (foldedSum t % primeP)

/-! ### Commands -/

/-- `p256_mod_reduce wd, wa` (R155): the pair at `ra` modulo P. -/
def execP256ModReduce (rd ra : RegNum) (s : State) : Host.Outcome State Fault Refusal :=
  s.runLegal (.p256ModReduce rd ra) (s.complete [(rd, reduce (s.engine.pairInt ra))] Flags.none)

/-- `p256_fieldadd wd, wa, wb` (R156). -/
def execP256FieldAdd (rd ra rb : RegNum) (s : State) : Host.Outcome State Fault Refusal :=
  s.runLegal (.p256FieldAdd rd ra rb) (s.complete [(rd, addMod (s.engine.field ra) (s.engine.field rb))]
    (Flags.ofField (s.engine.ncSingle ra || s.engine.ncSingle rb)))

/-- `p256_fieldmult wd, wa, wb` (R157). -/
def execP256FieldMult (rd ra rb : RegNum) (s : State) : Host.Outcome State Fault Refusal :=
  s.runLegal (.p256FieldMult rd ra rb) (s.complete [(rd, mulMod (s.engine.field ra) (s.engine.field rb))]
    (Flags.ofField (s.engine.ncSingle ra || s.engine.ncSingle rb)))

/-- `p256_fieldinvert wd, wa` (R158): an operand that is 0 modulo P raises INV_ZERO and writes nothing else. -/
def execP256FieldInvert (rd ra : RegNum) (s : State) : Host.Outcome State Fault Refusal :=
  let a := s.engine.field ra
  s.runLegal (.p256FieldInvert rd ra) (if isZero a then s.raise .invZero
    else s.complete [(rd, invMod a)] (Flags.ofField (s.engine.ncSingle ra)))

end Sys2Proof.Machine
end

