-- ==== Sys2Proof/Machine/Point.lean ====
section
/-! DEFINITION. Jacobian doubling and mixed addition and their two commands (spec/42_point.md). -/

namespace Sys2Proof.Machine

/-- `INFINITY = (0, 0, 0)` (R182). -/
def Jacobian.infinity : Jacobian := ⟨0, 0, 0⟩

/-- `isInfinity`: the Z coordinate is 0, whatever X and Y are (R181). -/
def Jacobian.isInfinity (p : Jacobian) : Bool := isZero p.z

/-- `Normal`: a point at infinity becomes `(0, 0, 0)`, a finite point stays (R182, R187). -/
def Jacobian.normal (p : Jacobian) : Jacobian := if p.isInfinity then .infinity else p

/-- The formulas of `PointDouble` for a finite point (R184). -/
def doubleFormulas (p : Jacobian) : Jacobian :=
  let t1 := mulMod p.z p.z
  let m := times3 (mulMod (subMod p.x t1) (addMod p.x t1))
  let y2 := mulMod p.y p.y
  let s := times4 (mulMod p.x y2)
  let x3 := subMod (mulMod m m) (times2 s)
  let y3 := subMod (mulMod m (subMod s x3)) (times8 (mulMod y2 y2))
  let z3 := times2 (mulMod p.y p.z)
  ⟨x3, y3, z3⟩

/-- `PointDouble` (R184): infinity doubles to infinity, and a result with Z3 = 0 is `(0, 0, 0)`. -/
def pointDouble (p : Jacobian) : Jacobian :=
  if p.isInfinity then .infinity else (doubleFormulas p).normal

/-- `General` (R188), with the differences C and D of R187. -/
def generalAdd (p : Jacobian) (c d : Word) : Jacobian :=
  let z3 := mulMod p.z c
  let c2 := mulMod c c
  let c3 := mulMod c2 c
  let v := mulMod p.x c2
  let x3 := subMod (subMod (mulMod d d) (times2 v)) c3
  let y3 := subMod (mulMod d (subMod v x3)) (mulMod p.y c3)
  ⟨x3, y3, z3⟩

/-- The x-intermediate `C = x2*Z1^2 - X1` of R187. -/
def xDifference (p q : Jacobian) : Word := subMod (mulMod q.x (mulMod p.z p.z)) p.x

/-- The y-intermediate `D = y2*Z1^3 - Y1` of R187. -/
def yDifference (p q : Jacobian) : Word := subMod (mulMod q.y (mulMod (mulMod p.z p.z) p.z)) p.y

/-- `PointAddMixed` (R187): the five cases in their order. Q's Z only tells whether Q is at infinity, and is the Z of the
doubling in case 3 (R189). -/
def pointAddMixed (p q : Jacobian) : Jacobian :=
  if q.isInfinity then p.normal
  else if p.isInfinity then q.normal
  else
    let c := xDifference p q
    let d := yDifference p q
    if isZero c && isZero d then pointDouble q
    else if isZero c then .infinity
    else generalAdd p c d

/-- The destination writes of a Jacobian result (R186, R190). -/
def Jacobian.writes (p : Jacobian) (rd : RegNum) : List (RegNum × Word) := tripleWrites rd p.x p.y p.z

/-- `p256_point_double wd, wa` (R186). -/
def execP256PointDouble (rd ra : RegNum) (s : State) : Host.Outcome State Fault Refusal :=
  let r := pointDouble (s.engine.jacobian ra)
  s.runLegal (.p256PointDouble rd ra) (s.complete (r.writes rd) (Flags.ofPoint r.isInfinity (s.engine.ncTriple ra)))

/-- `p256_point_add_mixed wd, wa, wb` (R190). -/
def execP256PointAddMixed (rd ra rb : RegNum) (s : State) : Host.Outcome State Fault Refusal :=
  let r := pointAddMixed (s.engine.jacobian ra) (s.engine.jacobian rb)
  s.runLegal (.p256PointAddMixed rd ra rb)
    (s.complete (r.writes rd) (Flags.ofPoint r.isInfinity (s.engine.ncTriple ra || s.engine.ncTriple rb)))

end Sys2Proof.Machine
end

