-- ==== Sys2Proof/Machine/ScalarMult.lean ====
section
/-! DEFINITION. NAF encoding, scalar multiplication and its command (spec/43_scalar_mult.md). -/

namespace Sys2Proof.Machine

/-- A signed digit of a NAF string (R200). -/
inductive NafDigit where
  | minusOne
  | zero
  | plusOne
  deriving DecidableEq, Repr

/-- The integer a digit stands for (R200). -/
def NafDigit.value : NafDigit → Int
  | .minusOne => -1
  | .zero => 0
  | .plusOne => 1

/-- The digit chosen from the two low bits of the working value (R201): "value 1 → digit +1, value 3 → digit −1". -/
def nafDigit (w : WideWord) : NafDigit :=
  if w.getLsbD 0 then (if w.getLsbD 1 then .minusOne else .plusOne) else .zero

/-- The working value with the digit's value subtracted; for −1 this is an addition (R201). -/
def nafSubtract (w : WideWord) : NafDigit → WideWord
  | .minusOne => w + 1
  | .zero => w
  | .plusOne => w - 1

/-- The loop of `NafEncode`, digits from `d[0]` upward, for at most `n` passes (R201). -/
def nafLoop : Nat → WideWord → List NafDigit
  | 0, _ => []
  | n + 1, w =>
    if mostSignificantBitLength w ≥ 1 then
      nafDigit w :: nafLoop n (rightShiftOne (nafSubtract w (nafDigit w)))
    else []

/-- `NafEncode(k)`: the digit string, whose length is `count` (R201); 257 passes are enough (R202 (d), log entry 12). -/
def nafEncode (k : Word) : List NafDigit := nafLoop Config.nafMax (k.setWidth 257)

/-- The integer a digit string stands for: the sum of `d[i] * 2^i` (R200). -/
def nafValue : List NafDigit → Int
  | [] => 0
  | d :: ds => d.value + 2 * nafValue ds

/-- `Bp = (x, y, 1)` (R180, R204). -/
def basePoint (p : Affine) : Jacobian := ⟨p.x, p.y, 1⟩

/-- `Bn = (x, subMod(0, y), 1)` (R204). -/
def negatedBasePoint (p : Affine) : Jacobian := ⟨p.x, subMod 0 p.y, 1⟩

/-- One pass of the loop of `ScalarMult`: double, then add the base point, the negated base point or nothing (R205). -/
def scalarPass (p : Affine) (acc : Jacobian) (d : NafDigit) : Jacobian :=
  let doubled := pointDouble acc
  match d with
  | .plusOne => pointAddMixed doubled (basePoint p)
  | .minusOne => pointAddMixed doubled (negatedBasePoint p)
  | .zero => doubled

/-- The accumulator after the loop, from the most significant digit down, started at infinity (R205). -/
def scalarLoop (k : Word) (p : Affine) : Jacobian :=
  (nafEncode k).reverse.foldl (scalarPass p) .infinity

/-- Conversion to affine coordinates: `X * Z^-2`, `Y * Z^-3`; `none` is Infinity, and no inversion is attempted (R205). -/
def toAffine (p : Jacobian) : Option Affine :=
  if p.isInfinity then none
  else
    let zi := invMod p.z
    let zi2 := mulMod zi zi
    some ⟨mulMod p.x zi2, mulMod p.y (mulMod zi2 zi)⟩

/-- `ScalarMult(k, x, y)` (R205). -/
def scalarMult (k : Word) (p : Affine) : Option Affine := toAffine (scalarLoop k p)

/-- What the command writes for the result: `(0, 0)` for Infinity (R206, D18). -/
def affineOrZero (r : Option Affine) : Affine := r.getD ⟨0, 0⟩

/-- `p256_scalar_mult_naf wd, wa, wb` (R206). The scalar is a plain integer: any value, not counted for NC. -/
def execP256ScalarMultNaf (rd ra rb : RegNum) (s : State) : Host.Outcome State Fault Refusal :=
  let r := scalarMult (s.engine.single ra) (s.engine.affine rb)
  s.runLegal (.p256ScalarMultNaf rd ra rb)
    (s.complete (pairWrites rd (affineOrZero r).x (affineOrZero r).y) (Flags.ofPoint r.isNone (s.engine.ncPair rb)))

end Sys2Proof.Machine
end

