-- ==== Sys2Proof/Machine/Validate.lean ====
section
/-! DEFINITION. The point-on-curve test and its command (spec/44_validate.md). -/

namespace Sys2Proof.Machine

/-- `IsOnCurve(x, y)`: `y^2 = x^3 - 3x + B` modulo P (R220). -/
def isOnCurve (p : Affine) : Bool :=
  let lhs := mulMod p.y p.y
  let x3 := mulMod (mulMod p.x p.x) p.x
  let rhs := addMod (subMod x3 (times3 p.x)) coeffB
  compareUnsigned lhs rhs = 0

/-- `p256_point_validate wa` (R221): the verdict goes to V and no register is written. -/
def execP256PointValidate (ra : RegNum) (s : State) : Host.Outcome State Fault Refusal :=
  s.runLegal (.p256PointValidate ra)
    (s.complete [] (Flags.ofVerdict (isOnCurve (s.engine.affine ra)) (s.engine.ncPair ra)))

end Sys2Proof.Machine
end

