-- ==== Sys2Proof/Machine/Dispatch.lean ====
section
/-! DEFINITION. The meaning of every command, one arm per constructor of Instr (spec/30_encoding.md R85). -/

namespace Sys2Proof.Machine

/-- Running a command on a state whose LASTCMD already holds its word (R89). -/
def exec (i : Instr) (s : State) : Host.Outcome State Fault Refusal :=
  match i with
  | .bigintAdd256 rd ra rb => Sys2Proof.Machine.execBigintAdd256 rd ra rb s
  | .bigintMult256 rd ra rb => Sys2Proof.Machine.execBigintMult256 rd ra rb s
  | .p256ModReduce rd ra => Sys2Proof.Machine.execP256ModReduce rd ra s
  | .p256FieldAdd rd ra rb => Sys2Proof.Machine.execP256FieldAdd rd ra rb s
  | .p256FieldMult rd ra rb => Sys2Proof.Machine.execP256FieldMult rd ra rb s
  | .p256FieldInvert rd ra => Sys2Proof.Machine.execP256FieldInvert rd ra s
  | .p256PointDouble rd ra => Sys2Proof.Machine.execP256PointDouble rd ra s
  | .p256PointAddMixed rd ra rb => Sys2Proof.Machine.execP256PointAddMixed rd ra rb s
  | .p256ScalarMultNaf rd ra rb => Sys2Proof.Machine.execP256ScalarMultNaf rd ra rb s
  | .p256PointValidate ra => Sys2Proof.Machine.execP256PointValidate ra s

end Sys2Proof.Machine
end

