-- ==== Sys2Proof/Machine/Window.lean ====
section
/-! DEFINITION. The register window: its map, host reads and writes, the execution of a command word inside a CMD write,
and the reset input (spec/20_memory.md; spec/30_encoding.md R89; spec/60_exceptions.md; spec/70_reset_and_hazards.md). -/

namespace Sys2Proof.Machine

/-! ### The map (R54) -/

/-- What stands at a word of the window. -/
inductive WindowReg where
  /-- Limb j of `W[i]`, at `0x20*i + 4*j`. -/
  | limb (i : RegNum) (j : Fin 8)
  /-- CMD, 0x200. -/
  | cmd
  /-- STATUS, 0x204. -/
  | status
  /-- CTRL, 0x208. -/
  | ctrl
  /-- ID, 0x20C. -/
  | id
  /-- 0x210 to 0x3FC. -/
  | reserved
  deriving DecidableEq, Repr

/-- The map of R54 for a legal offset, with `i = off[8:5]` and `j = off[4:2]` below 0x200 (R53). -/
def windowReg (off : Nat) : WindowReg :=
  if off < 0x200 then .limb (Fin.ofNat 16 (off / 32)) (Fin.ofNat 8 (off / 4))
  else if off = 0x200 then .cmd
  else if off = 0x204 then .status
  else if off = 0x208 then .ctrl
  else if off = 0x20C then .id
  else .reserved

/-! ### Reads (R52) -/

/-- The word a legal read returns; no read changes any state (R52, R54). -/
def Engine.readReg (e : Engine) : WindowReg → BitVec 32
  | .limb i j => limb (e.reg i) j
  | .cmd => e.lastCmd
  | .status => e.statusWord
  | .ctrl => 0
  | .id => idWord
  | .reserved => 0

/-! ### Writes (R53) -/

/-- A limb write: 32 bits of one register and nothing else, also in the faulted state (R53, R234). -/
def State.writeLimb (s : State) (i : RegNum) (j : Fin 8) (v : Limb) : State :=
  { s with engine := s.engine.setReg i (setLimb (s.engine.reg i) j v) }

/-- An accepted CMD write sets LASTCMD to the written word (R34). -/
def State.setLastCmd (s : State) (w : CmdWord) : State :=
  { s with engine := { s.engine with lastCmd := w } }

/-- `Execute(w)` (R89): an illegal word raises ILLEGAL_CMD and changes nothing else. -/
def execute (w : CmdWord) (s : State) : Host.Outcome State Fault Refusal :=
  match decode w with
  | .ok i => exec i s
  | .error _ => .next (s.raise .illegalCmd)

/-- A write to CMD: accepted when `STATUS.ERR = 0`, else ignored completely (R34, R234). -/
def writeCmd (w : CmdWord) (s : State) : Host.Outcome State Fault Refusal :=
  if s.engine.faulted then .next s else execute w (s.setLastCmd w)

/-- A write to CTRL: a soft reset when bit 0 is 1; bits 31:1 are ignored (R35, R261). -/
def State.writeCtrl (s : State) (v : BitVec 32) : State :=
  if v.getLsbD 0 then s.resetEngine else s

/-- `RegWrite(off, v)` at a legal offset (R53): writes to STATUS, ID and the reserved words do nothing. -/
def writeReg (r : WindowReg) (v : BitVec 32) (s : State) : Host.Outcome State Fault Refusal :=
  match r with
  | .limb i j => .next (s.writeLimb i j v)
  | .cmd => writeCmd v s
  | .ctrl => .next (s.writeCtrl v)
  | .status => .next s
  | .id => .next s
  | .reserved => .next s

/-! ### Accesses (R50, R57, R240) -/

/-- The answer of one access joins the observation of the run (R40). -/
def State.respond (s : State) (r : Response) : State := { s with log := s.log ++ [r] }

/-- One access at a byte offset from `BASE`.
Outside the window it is not addressed to the engine (R240); while the reset input is asserted the engine accepts none
(R260, U25); misaligned, or not 32 bits wide, it gets a bus error (R57).
In these cases no engine state changes (log entries 4, 5 and 6). -/
def windowAccess (off : Nat) (a : Access) (s : State) : Host.Outcome State Fault Refusal :=
  if off ≥ Config.windowSize then .next (s.respond .notAddressed)
  else if s.inReset then .next (s.respond .busError)
  else if off % 4 ≠ 0 then .next (s.respond .busError)
  else
    match a with
    | .read .w32 => .next (s.respond (.value (s.engine.readReg (windowReg off))))
    | .read _ => .next (s.respond .busError)
    | .write (.b32 v) => writeReg (windowReg off) v (s.respond .written)
    | .write _ => .next (s.respond .busError)

/-- One access at a bus address: `MemRead(BASE+off, n)` is the window access at `off`, and an address outside the window is
not addressed to the engine (R14, R240; log entry 5). -/
def busAccess (addr : Nat) (a : Access) (s : State) : Host.Outcome State Fault Refusal :=
  if Config.base ≤ addr then windowAccess (addr - Config.base) a s else .next (s.respond .notAddressed)

/-- The platform drives the reset input (R260): while it is asserted no access is accepted, and when it is released the
engine holds the values of R39. Releasing an input that is not asserted changes nothing (log entry 7). -/
def State.driveReset (s : State) (asserted : Bool) : State :=
  if asserted then { s with inReset := true }
  else if s.inReset then { s.resetEngine with inReset := false }
  else s

/-- One event of the host or the platform. -/
def perform (e : HostEvent) (s : State) : Host.Outcome State Fault Refusal :=
  match e with
  | .window off a => windowAccess off a s
  | .bus addr a => busAccess addr a s
  | .resetLine asserted => .next (s.driveReset asserted)

end Sys2Proof.Machine
end

