-- ==== Sys2Proof/Machine/Step.lean ====
section
/-! DEFINITION. One step: the host's next access is performed completely (spec/00_scope.md R18; spec/20_memory.md R60). -/

namespace Sys2Proof.Machine

/-- One transition per host access (R18): the next event leaves the list and is performed.
With no event pending the engine is idle: "The engine never acts on its own" (R18; log entry 3). -/
def step (s : State) : Host.Outcome State Fault Refusal :=
  match s.host with
  | [] => .next s
  | e :: rest => perform e { s with host := rest }

/-- The event that makes the engine execute a word: a 32-bit write to CMD, offset 0x200 (R34, R54). -/
def cmdWriteEvent (w : CmdWord) : HostEvent := .window 0x200 (.write (.b32 w))

/-- `s` with the instruction whose table bits are `w` as the host's very next write to CMD, so that the next step runs it.
The engine takes its commands from the host's writes (R26), and accepts one only when it is not faulted (R34) and the reset
input is released (R260): so ERR is 0 and `inReset` is false in the state given (log entry 13). -/
def State.withFetchWord (s : State) (nbits w : Nat) : State :=
  { s with
    engine := { s.engine with err := 0 }
    inReset := false
    host := cmdWriteEvent (BitVec.ofNat 32 (w % 2 ^ nbits)) :: s.host }

end Sys2Proof.Machine
end

