-- ==== Sys2Proof/Safety.lean ====
section
/-! DEFINITION. The terms the claims about the engine are stated in: which registers a command reads and writes, what a
completed and a faulting command leave unchanged, when a word is legal, the invariant, and the curve as a group. -/

namespace Sys2Proof

open Machine

/-! ### What a command reads and writes (spec/30_encoding.md R83) -/

/-- The destination registers of a command: a pair is `n, n+1`, a triple `n, n+1, n+2` (R23, R24, R83). -/
def Instr.dests : Instr → List RegNum
  | .bigintAdd256 rd _ _ => [rd]
  | .bigintMult256 rd _ _ => [rd, rd + 1]
  | .p256ModReduce rd _ => [rd]
  | .p256FieldAdd rd _ _ => [rd]
  | .p256FieldMult rd _ _ => [rd]
  | .p256FieldInvert rd _ => [rd]
  | .p256PointDouble rd _ => [rd, rd + 1, rd + 2]
  | .p256PointAddMixed rd _ _ => [rd, rd + 1, rd + 2]
  | .p256ScalarMultNaf rd _ _ => [rd, rd + 1]
  | .p256PointValidate _ => []

/-- The source registers of a command (R83). -/
def Instr.sources : Instr → List RegNum
  | .bigintAdd256 _ ra rb => [ra, rb]
  | .bigintMult256 _ ra rb => [ra, rb]
  | .p256ModReduce _ ra => [ra, ra + 1]
  | .p256FieldAdd _ ra rb => [ra, rb]
  | .p256FieldMult _ ra rb => [ra, rb]
  | .p256FieldInvert _ ra => [ra]
  | .p256PointDouble _ ra => [ra, ra + 1, ra + 2]
  | .p256PointAddMixed _ ra rb => [ra, ra + 1, ra + 2, rb, rb + 1, rb + 2]
  | .p256ScalarMultNaf _ ra rb => [ra, rb, rb + 1]
  | .p256PointValidate ra => [ra, ra + 1]

/-- The commands whose destination registers are field elements (R25): all but the two integer commands, and the
validation, which has none. -/
def Instr.writesField : Instr → Bool
  | .bigintAdd256 _ _ _ => false
  | .bigintMult256 _ _ _ => false
  | .p256ModReduce _ _ => true
  | .p256FieldAdd _ _ _ => true
  | .p256FieldMult _ _ _ => true
  | .p256FieldInvert _ _ => true
  | .p256PointDouble _ _ => true
  | .p256PointAddMixed _ _ _ => true
  | .p256ScalarMultNaf _ _ _ => true
  | .p256PointValidate _ => true

/-- The sources read as plain integers (R21, R23, R30): the operands of the two integer commands, the pair of the reduction,
the scalar of the scalar multiplication. -/
def Instr.plainSources : Instr → List RegNum
  | .bigintAdd256 _ ra rb => [ra, rb]
  | .bigintMult256 _ ra rb => [ra, rb]
  | .p256ModReduce _ ra => [ra, ra + 1]
  | .p256FieldAdd _ _ _ => []
  | .p256FieldMult _ _ _ => []
  | .p256FieldInvert _ _ => []
  | .p256PointDouble _ _ => []
  | .p256PointAddMixed _ _ _ => []
  | .p256ScalarMultNaf _ ra _ => [ra]
  | .p256PointValidate _ => []

/-- The sources read as field elements, counted for NC (R30, R144). -/
def Instr.fieldSources : Instr → List RegNum
  | .bigintAdd256 _ _ _ => []
  | .bigintMult256 _ _ _ => []
  | .p256ModReduce _ _ => []
  | .p256FieldAdd _ ra rb => [ra, rb]
  | .p256FieldMult _ ra rb => [ra, rb]
  | .p256FieldInvert _ ra => [ra]
  | .p256PointDouble _ ra => [ra, ra + 1, ra + 2]
  | .p256PointAddMixed _ ra rb => [ra, ra + 1, ra + 2, rb, rb + 1, rb + 2]
  | .p256ScalarMultNaf _ _ rb => [rb, rb + 1]
  | .p256PointValidate ra => [ra, ra + 1]

/-- The same command and sources with another destination base (R266); a validation has no destination. -/
def Instr.withDest : Instr → RegNum → Instr
  | .bigintAdd256 _ ra rb, d => .bigintAdd256 d ra rb
  | .bigintMult256 _ ra rb, d => .bigintMult256 d ra rb
  | .p256ModReduce _ ra, d => .p256ModReduce d ra
  | .p256FieldAdd _ ra rb, d => .p256FieldAdd d ra rb
  | .p256FieldMult _ ra rb, d => .p256FieldMult d ra rb
  | .p256FieldInvert _ ra, d => .p256FieldInvert d ra
  | .p256PointDouble _ ra, d => .p256PointDouble d ra
  | .p256PointAddMixed _ ra rb, d => .p256PointAddMixed d ra rb
  | .p256ScalarMultNaf _ ra rb, d => .p256ScalarMultNaf d ra rb
  | .p256PointValidate ra, _ => .p256PointValidate ra

/-! ### What stays (R36, R233, R268) -/

/-- `W[n]` of a machine. -/
def Machine.State.reg (s : State) (n : RegNum) : Word := s.engine.reg n

/-- What is around the engine is as before: the reset input, the host's pending events, the answers given. -/
def SameAround (s t : State) : Prop := t.inReset = s.inReset ∧ t.host = s.host ∧ t.log = s.log

/-- The frame of a completed command: every register but the destinations, ERR, LASTCMD and all around the engine are as
before. The four flags are all written (R36), so a claim says each of them. -/
def KeepsAllBut (s t : State) (dests : List RegNum) : Prop :=
  (∀ n, n ∉ dests → t.reg n = s.reg n) ∧ t.engine.err = s.engine.err ∧ t.engine.lastCmd = s.engine.lastCmd ∧
    SameAround s t

/-- What raising a fault leaves: ERR holds the code and nothing else changed, no register and no flag (R233). -/
def OnlyErrBecomes (s t : State) (code : BitVec 4) : Prop :=
  t.engine.err = code ∧ (∀ n, t.reg n = s.reg n) ∧ t.engine.flags = s.engine.flags ∧
    t.engine.lastCmd = s.engine.lastCmd ∧ SameAround s t

/-- The next thing that happens is an access at a window offset, the engine being out of reset (R53, R260). -/
def NextAccess (s : State) (off : Nat) (a : Access) (rest : List HostEvent) : Prop :=
  s.host = .window off a :: rest ∧ s.inReset = false

/-- What performing an access leaves around the engine: the event is gone and its answer is logged. -/
def AnsweredWith (s t : State) (r : Response) (rest : List HostEvent) : Prop :=
  t.host = rest ∧ t.log = s.log ++ [r] ∧ t.inReset = s.inReset

/-- The engine holds exactly the reset values of R39. -/
def HoldsResetValues (e : Engine) : Prop :=
  (∀ n, e.reg n = 0) ∧ e.flags.c = false ∧ e.flags.v = false ∧ e.flags.inf = false ∧ e.flags.nc = false ∧
    e.err = 0 ∧ e.lastCmd = 0

/-! ### Legal words, as R90 writes the checks -/

/-- `Legal(w)` in numbers: the five checks of R90 with the shapes of R83 written out. -/
def LegalWord (w : CmdWord) : Prop :=
  let op := w.toNat / 2 ^ 24
  let rd := w.toNat / 2 ^ 20 % 16
  let ra := w.toNat / 2 ^ 16 % 16
  let rb := w.toNat / 2 ^ 12 % 16
  (1 ≤ op ∧ op ≤ 10) ∧ w.toNat % 2 ^ 12 = 0 ∧
  (op = 3 ∨ op = 6 ∨ op = 7 ∨ op = 10 → rb = 0) ∧ (op = 10 → rd = 0) ∧
  (op = 2 ∨ op = 9 → rd ≤ 14) ∧ (op = 3 ∨ op = 10 → ra ≤ 14) ∧ (op = 9 → rb ≤ 14) ∧
  (op = 7 ∨ op = 8 → rd ≤ 13 ∧ ra ≤ 13) ∧ (op = 8 → rb ≤ 13)

/-! ### The invariant -/

/-- At most the flags of one kind of command are set together, since a completed command writes all four (R28 to R31, R36):
C comes alone, and V never with INF. -/
def FlagsFromOneCommand (f : Flags) : Prop :=
  (f.c = true → f.v = false ∧ f.inf = false ∧ f.nc = false) ∧ (f.v = true → f.inf = false)

/-- ERR is 0, 1 or 2, and LASTCMD then holds the word that faulted: an illegal word after ILLEGAL_CMD, a
`p256_fieldinvert` after INV_ZERO (R32, R34, R231). -/
def ErrNamesItsCause (e : Engine) : Prop :=
  e.err = 0 ∨ (e.err = 1 ∧ ∀ i, decode e.lastCmd ≠ .ok i) ∨
    (e.err = 2 ∧ ∃ rd ra, decode e.lastCmd = .ok (.p256FieldInvert rd ra))

/-- The invariant every step keeps. -/
def EngineInv (s : State) : Prop := FlagsFromOneCommand s.engine.flags ∧ ErrNamesItsCause s.engine

/-! ### The field and the curve, as mathematics -/

/-- The field element a register content stands for: the integer modulo P (R15). -/
def val (v : Word) : ZMod primeP := (v.toNat : ZMod primeP)

/-- The triple at base `n` holds the canonical values of three residues (R24, R25). -/
def HoldsTriple (s : State) (n : RegNum) (x y z : ZMod primeP) : Prop :=
  val (s.reg n) = x ∧ val (s.reg (n + 1)) = y ∧ val (s.reg (n + 2)) = z ∧
    (s.reg n).toNat < primeP ∧ (s.reg (n + 1)).toNat < primeP ∧ (s.reg (n + 2)).toNat < primeP

/-- The pair at base `n` holds the canonical values of two residues (R23, R25). -/
def HoldsPair (s : State) (n : RegNum) (x y : ZMod primeP) : Prop :=
  val (s.reg n) = x ∧ val (s.reg (n + 1)) = y ∧ (s.reg n).toNat < primeP ∧ (s.reg (n + 1)).toNat < primeP

/-- The curve `y^2 = x^3 - 3x + B` over the integers modulo P (R1, R141). -/
def p256 : WeierstrassCurve.Affine (ZMod primeP) :=
  { a₁ := 0, a₂ := 0, a₃ := 0, a₄ := -3, a₆ := val coeffB }

/-- A Jacobian triple represents a point: the identity when Z = 0, else the affine point `(X/Z^2, Y/Z^3)` (R180). -/
def Represents (p : Jacobian) : p256.Point → Prop
  | .zero => val p.z = 0
  | .some x y _ => val p.z ≠ 0 ∧ val p.x = x * val p.z ^ 2 ∧ val p.y = y * val p.z ^ 3

end Sys2Proof
end

