-- ==== Sys2Proof/Certificates/Slice0/Obligations.lean ====
section
/-! DEFINITION. The statements for the provers. Each docstring names the rules of spec/ the statement formalises. -/

open Sys2Proof Sys2Proof.Machine

/-! ## Encoding -/

/-- Decoding the word of any command with legal specifiers gives the command back, at every operand value
(spec/30_encoding.md R81, R83, R96). -/
def Obligations.DecodeOfEncode : Prop :=
  ∀ i : Instr, i.wf = true → decode (encode i) = .ok i

/-- Every legal command has one spelling: a word that decodes is the encoding of what it decodes to, and its specifiers are
in range (R90, R91, D8). -/
def Obligations.EncodeOfDecode : Prop :=
  ∀ (w : CmdWord) (i : Instr), decode w = .ok i → encode i = w ∧ i.wf = true

/-- `Legal(w)`: the decoder accepts exactly the words that pass the five checks of R90, written in numbers. -/
def Obligations.DecodeAcceptsExactlyLegalWords : Prop :=
  ∀ w : CmdWord, (∃ i, decode w = .ok i) ↔ LegalWord w

/-- Words written out from R83 and R96 decode to the commands they spell. -/
def Obligations.WrittenWordsDecode : Prop :=
  decode 0x01012000 = .ok (.bigintAdd256 0 1 2) ∧ decode 0x02412000 = .ok (.bigintMult256 4 1 2) ∧
  decode 0x05312000 = .ok (.p256FieldMult 3 1 2) ∧ decode 0x06BA0000 = .ok (.p256FieldInvert 11 10) ∧
  decode 0x07DD0000 = .ok (.p256PointDouble 13 13) ∧ decode 0x09E1E000 = .ok (.p256ScalarMultNaf 14 1 14) ∧
  decode 0x0A0E0000 = .ok (.p256PointValidate 14) ∧ decode 0x02F12000 = .error .pairBaseOutOfRange ∧
  decode 0x05312800 = .error .zeroFieldSet ∧ decode 0 = .error .reservedOpcode

/-! ## A step: the host's accesses -/

/-- A step runs the decoded command: when the host's next access is a CMD write of a word that decodes to `i`, out of reset
and not faulted, the step is `exec i` on the state with the event gone, its answer logged and LASTCMD the word (R34, R89). -/
def Obligations.StepRunsDecodedCommand : Prop :=
  ∀ (s : State) (w : CmdWord) (rest : List HostEvent) (i : Instr),
    NextAccess s 0x200 (.write (.b32 w)) rest → s.engine.err = 0 → decode w = .ok i →
      step s = exec i
        { s with host := rest, log := s.log ++ [.written], engine := { s.engine with lastCmd := w } }

/-- CMD and LASTCMD (R34): an accepted write sets LASTCMD and executes the word; a read returns LASTCMD; a write in the
faulted state changes nothing; after a fault LASTCMD holds the word that faulted. -/
def Obligations.CmdOffsetAcceptsOrIgnores : Prop :=
  ∀ (s : State) (rest : List HostEvent),
    (∀ w, NextAccess s 0x200 (.write (.b32 w)) rest → s.engine.err = 0 →
      (∃ t, step s = .next t ∧ t.engine.lastCmd = w ∧ AnsweredWith s t .written rest) ∧
      step s = execute w
        { s with host := rest, log := s.log ++ [.written], engine := { s.engine with lastCmd := w } }) ∧
    (NextAccess s 0x200 (.read .w32) rest →
      ∃ t, step s = .next t ∧ t.engine = s.engine ∧ AnsweredWith s t (.value s.engine.lastCmd) rest) ∧
    (∀ w, NextAccess s 0x200 (.write (.b32 w)) rest → s.engine.err ≠ 0 →
      ∃ t, step s = .next t ∧ t.engine = s.engine ∧ AnsweredWith s t .written rest)

/-- An illegal word written to CMD raises ILLEGAL_CMD: ERR becomes 1, LASTCMD is the word, no register and no flag changes
(R87, R88, R233). -/
def Obligations.IllegalWordRaisesIllegalCmd : Prop :=
  ∀ (s : State) (w : CmdWord) (rest : List HostEvent),
    NextAccess s 0x200 (.write (.b32 w)) rest → s.engine.err = 0 → ¬ LegalWord w →
      ∃ t, step s = .next t ∧ t.engine.err = 1 ∧ t.engine.lastCmd = w ∧ (∀ n, t.reg n = s.reg n) ∧
        t.engine.flags = s.engine.flags ∧ AnsweredWith s t .written rest

/-- Legality comes before operand values (R236): an illegal `p256_fieldinvert` word whose operand is 0 raises ILLEGAL_CMD
and not INV_ZERO. -/
def Obligations.IllegalWordBeatsInverseOfZero : Prop :=
  ∀ (s : State) (w : CmdWord) (rest : List HostEvent),
    NextAccess s 0x200 (.write (.b32 w)) rest → s.engine.err = 0 → w.toNat / 2 ^ 24 = 6 → ¬ LegalWord w →
      ∃ t, step s = .next t ∧ t.engine.err = 1

/-- The faulted state is left only by a reset, which zeroes every register; no later command, access or second fault
changes ERR (R32, R235). -/
def Obligations.FaultedStateLeftOnlyByReset : Prop :=
  ∀ s t : State, s.engine.err ≠ 0 → step s = .next t → t.engine.err ≠ s.engine.err →
    HoldsResetValues t.engine ∧
    ((∃ v rest, v.getLsbD 0 = true ∧ s.inReset = false ∧
        (s.host = .window 0x208 (.write (.b32 v)) :: rest ∨
          s.host = .bus (Config.base + 0x208) (.write (.b32 v)) :: rest)) ∨
      (s.inReset = true ∧ ∃ rest, s.host = .resetLine false :: rest))

/-- A legal read returns the word the map of R54 gives and changes no engine state, faulted or not (R52). -/
def Obligations.WindowReadsReturnTheMap : Prop :=
  ∀ (s : State) (off : Nat) (rest : List HostEvent),
    NextAccess s off (.read .w32) rest → off % 4 = 0 → off < 0x400 →
      ∃ t v, step s = .next t ∧ t.engine = s.engine ∧ AnsweredWith s t (.value v) rest ∧
        (∀ (i : Fin 16) (j : Fin 8), off = 0x20 * i.val + 4 * j.val →
          v.toNat = (s.reg i).toNat / 2 ^ (32 * j.val) % 2 ^ 32) ∧
        (off = 0x200 → v = s.engine.lastCmd) ∧
        (off = 0x204 → v.toNat = s.engine.flags.c.toNat + 2 * s.engine.flags.v.toNat + 4 * s.engine.flags.inf.toNat +
          8 * s.engine.flags.nc.toNat + 2 ^ 8 * s.engine.err.toNat) ∧
        (off = 0x208 → v = 0) ∧ (off = 0x20C → v = 0x50323536) ∧ (0x210 ≤ off → v = 0)

/-- A legal write (R53): a limb write changes exactly 32 bits of one register, also in the faulted state; CMD executes when
not faulted; CTRL resets when bit 0 is 1; STATUS, ID and the reserved words ignore it. -/
def Obligations.WindowWritesFollowTheMap : Prop :=
  ∀ (s : State) (off : Nat) (v : BitVec 32) (rest : List HostEvent),
    NextAccess s off (.write (.b32 v)) rest → off % 4 = 0 → off < 0x400 →
      ∃ t, step s = .next t ∧ AnsweredWith s t .written rest ∧
        (∀ (i : Fin 16) (j : Fin 8), off = 0x20 * i.val + 4 * j.val →
          (∀ (n : Fin 16) (k : Fin 8), (t.reg n).toNat / 2 ^ (32 * k.val) % 2 ^ 32 =
            if n = i ∧ k = j then v.toNat else (s.reg n).toNat / 2 ^ (32 * k.val) % 2 ^ 32) ∧
          t.engine.flags = s.engine.flags ∧ t.engine.err = s.engine.err ∧ t.engine.lastCmd = s.engine.lastCmd) ∧
        (off = 0x200 → s.engine.err = 0 → step s = execute v
          { s with host := rest, log := s.log ++ [.written], engine := { s.engine with lastCmd := v } }) ∧
        (off = 0x200 → s.engine.err ≠ 0 → t.engine = s.engine) ∧
        (off = 0x208 → v.getLsbD 0 = true → HoldsResetValues t.engine) ∧
        (off = 0x208 → v.getLsbD 0 = false → t.engine = s.engine) ∧
        (off = 0x204 ∨ 0x20C ≤ off → t.engine = s.engine)

/-- An access of another width, or at an offset that is not a multiple of 4, gets a bus error response: the read returns no
value, the write writes nothing, and no engine state changes (R57, R240). -/
def Obligations.UnsupportedAccessChangesNothing : Prop :=
  ∀ (s : State) (off : Nat) (a : Access) (rest : List HostEvent),
    NextAccess s off a rest → off < 0x400 →
    (off % 4 ≠ 0 ∨ (a ≠ .read .w32 ∧ ∀ v, a ≠ .write (.b32 v))) →
      ∃ t, step s = .next t ∧ t.engine = s.engine ∧ AnsweredWith s t .busError rest

/-- The window sits at `BASE`: a bus access at `BASE + off` is the window access at `off`, and an access outside the window
is not addressed to the engine (R10, R14, R240; the model's answer to such an access is log entry 5). -/
def Obligations.BusAccessReachesTheWindow : Prop :=
  ∀ (s : State) (addr : Nat) (a : Access) (rest : List HostEvent), s.host = .bus addr a :: rest →
    (∀ off, off < 0x400 → addr = Config.base + off → step s = step { s with host := .window off a :: rest }) ∧
    (addr < Config.base ∨ Config.base + 0x400 ≤ addr →
      ∃ t, step s = .next t ∧ t.engine = s.engine ∧ AnsweredWith s t .notAddressed rest)

/-- With no access pending the engine is idle: it never acts on its own (R18; log entry 3). -/
def Obligations.IdleEngineStays : Prop :=
  ∀ s : State, s.host = [] → step s = .next s

/-- Every step has a next state: no command and no host access stops the machine. Of the commands R19 says so. Of the
accesses it is the MODEL'S CHOICE: an idle step (log entry 3), an unsupported access, which R57 lets a model refuse (log
entry 4), one outside the window (log entry 5) and one during a reset, which U25 lets a model refuse (log entry 6) are all
next states. -/
def Obligations.EveryStepHasNextState : Prop :=
  ∀ s : State, ∃ t, step s = .next t

/-- STATUS (R27): the place of every field in the 32-bit word, and the reserved bits read 0. -/
def Obligations.StatusWordLayout : Prop :=
  ∀ (e : Engine) (k : Nat), e.statusWord.getLsbD k =
    if k = 0 then e.flags.c else if k = 1 then e.flags.v else if k = 2 then e.flags.inf else if k = 3 then e.flags.nc
    else if 8 ≤ k ∧ k < 12 then e.err.getLsbD (k - 8) else false

/-! ## Reset -/

/-- After a reset every register, flag and field is 0, and STATUS, ID and CTRL read as R39 says: the machine right after
reset, and what a soft reset and the end of a hardware reset leave of any machine (R39). -/
def Obligations.ResetStateIsZero : Prop :=
  ∀ e : Engine, (e = State.reset.engine ∨ (∃ s : State, e = s.resetEngine.engine) ∨
      ∃ s : State, s.inReset = true ∧ e = (s.driveReset false).engine) →
    HoldsResetValues e ∧ e.statusWord = 0 ∧ e.readReg .cmd = 0 ∧ e.readReg .id = 0x50323536 ∧ e.readReg .ctrl = 0

/-- The soft reset (R35, R261): a CTRL write with bit 0 = 1 zeroes the registers, STATUS and LASTCMD in any state, faulted or
not; with bit 0 = 0 it does nothing, whatever bits 31:1 are; a read returns 0. -/
def Obligations.CtrlWriteResets : Prop :=
  ∀ (s : State) (rest : List HostEvent),
    (∀ v, NextAccess s 0x208 (.write (.b32 v)) rest →
      ∃ t, step s = .next t ∧ AnsweredWith s t .written rest ∧
        (v.toNat % 2 = 1 → HoldsResetValues t.engine) ∧ (v.toNat % 2 = 0 → t.engine = s.engine)) ∧
    (NextAccess s 0x208 (.read .w32) rest →
      ∃ t, step s = .next t ∧ t.engine = s.engine ∧ AnsweredWith s t (.value 0) rest)

/-- The hardware reset (R260, U25): while the input is asserted no access changes or reads the engine, and when it is
released the engine holds the reset values. That the input is released right after reset, and that the state while it is
asserted is the old one, are the model's choice (log entry 7), as is the answer to an access then (log entry 6). -/
def Obligations.HardwareResetInput : Prop :=
  State.reset.inReset = false ∧
  (∀ (s : State) (rest : List HostEvent), s.host = .resetLine true :: rest →
    ∃ t, step s = .next t ∧ t.inReset = true ∧ t.host = rest) ∧
  (∀ (s : State) (off : Nat) (a : Access) (rest : List HostEvent), s.inReset = true → off < 0x400 →
    s.host = .window off a :: rest →
    ∃ t, step s = .next t ∧ t.engine = s.engine ∧ AnsweredWith s t .busError rest) ∧
  (∀ (s : State) (rest : List HostEvent), s.inReset = true → s.host = .resetLine false :: rest →
    ∃ t, step s = .next t ∧ t.inReset = false ∧ t.host = rest ∧ HoldsResetValues t.engine)

/-! ## The commands -/

/-- `bigint_add_256` (R118): the sum modulo 2^256, C = bit 256 of the sum, the other flags 0, and nothing else changes. -/
def Obligations.BigintAddSumAndCarry : Prop :=
  ∀ (rd ra rb : RegNum) (s : State), ∃ t, exec (.bigintAdd256 rd ra rb) s = .next t ∧
    (t.reg rd).toNat = ((s.reg ra).toNat + (s.reg rb).toNat) % 2 ^ 256 ∧
    t.engine.flags = ⟨decide (2 ^ 256 ≤ (s.reg ra).toNat + (s.reg rb).toNat), false, false, false⟩ ∧
    KeepsAllBut s t [rd]

/-- `bigint_mult_256` (R119): the exact product in the pair, low half in the lower-numbered register; ILLEGAL_CMD for the
pair base 15. -/
def Obligations.BigintMultProductPair : Prop :=
  ∀ (rd ra rb : RegNum) (s : State),
    (rd.val = 15 → ∃ t, exec (.bigintMult256 rd ra rb) s = .next t ∧ OnlyErrBecomes s t 1) ∧
    (rd.val ≤ 14 → ∃ t, exec (.bigintMult256 rd ra rb) s = .next t ∧
    (t.reg rd).toNat = (s.reg ra).toNat * (s.reg rb).toNat % 2 ^ 256 ∧
    (t.reg (rd + 1)).toNat = (s.reg ra).toNat * (s.reg rb).toNat / 2 ^ 256 ∧
    t.engine.flags = ⟨false, false, false, false⟩ ∧ KeepsAllBut s t [rd, rd + 1])

/-- `p256_mod_reduce` (R155): the 512-bit pair modulo P; ILLEGAL_CMD for the pair base 15. -/
def Obligations.ModReducePairModuloP : Prop :=
  ∀ (rd ra : RegNum) (s : State),
    (ra.val = 15 → ∃ t, exec (.p256ModReduce rd ra) s = .next t ∧ OnlyErrBecomes s t 1) ∧
    (ra.val ≤ 14 → ∃ t, exec (.p256ModReduce rd ra) s = .next t ∧
    (t.reg rd).toNat = ((s.reg (ra + 1)).toNat * 2 ^ 256 + (s.reg ra).toNat) % primeP ∧
    t.engine.flags = ⟨false, false, false, false⟩ ∧ KeepsAllBut s t [rd])

/-- `p256_fieldadd` (R156): the sum modulo P for all 256-bit operands, NC when one of them is not canonical. -/
def Obligations.FieldAddSumModuloP : Prop :=
  ∀ (rd ra rb : RegNum) (s : State), ∃ t, exec (.p256FieldAdd rd ra rb) s = .next t ∧
    (t.reg rd).toNat = ((s.reg ra).toNat + (s.reg rb).toNat) % primeP ∧
    t.engine.flags = ⟨false, false, false, decide (primeP ≤ (s.reg ra).toNat ∨ primeP ≤ (s.reg rb).toNat)⟩ ∧
    KeepsAllBut s t [rd]

/-- `p256_fieldmult` (R157): the product modulo P for all 256-bit operands, NC when one of them is not canonical. -/
def Obligations.FieldMultProductModuloP : Prop :=
  ∀ (rd ra rb : RegNum) (s : State), ∃ t, exec (.p256FieldMult rd ra rb) s = .next t ∧
    (t.reg rd).toNat = (s.reg ra).toNat * (s.reg rb).toNat % primeP ∧
    t.engine.flags = ⟨false, false, false, decide (primeP ≤ (s.reg ra).toNat ∨ primeP ≤ (s.reg rb).toNat)⟩ ∧
    KeepsAllBut s t [rd]

/-- `p256_fieldinvert` (R158): for an operand that is not 0 modulo P, the canonical value whose product with it is 1 modulo
P; for an operand that is 0 modulo P, INV_ZERO: ERR becomes 2 and nothing else changes. -/
def Obligations.FieldInvertInverseOrFault : Prop :=
  ∀ (rd ra : RegNum) (s : State),
    ((s.reg ra).toNat % primeP ≠ 0 → ∃ t, exec (.p256FieldInvert rd ra) s = .next t ∧
      (t.reg rd).toNat < primeP ∧ (s.reg ra).toNat * (t.reg rd).toNat % primeP = 1 ∧
      t.engine.flags = ⟨false, false, false, decide (primeP ≤ (s.reg ra).toNat)⟩ ∧ KeepsAllBut s t [rd]) ∧
    ((s.reg ra).toNat % primeP = 0 → ∃ t, exec (.p256FieldInvert rd ra) s = .next t ∧ OnlyErrBecomes s t 2)

/-- `p256_point_double` (R184, R186) in the ring of integers modulo P: infinity, or Z3 = 0, gives (0, 0, 0) with INF;
otherwise the formulas of R184, canonical; ILLEGAL_CMD for a triple base above 13. -/
def Obligations.PointDoubleFormulas : Prop :=
  ∀ (rd ra : RegNum) (s : State),
    (13 < rd.val ∨ 13 < ra.val → ∃ t, exec (.p256PointDouble rd ra) s = .next t ∧ OnlyErrBecomes s t 1) ∧
    (rd.val ≤ 13 → ra.val ≤ 13 → ∃ t, exec (.p256PointDouble rd ra) s = .next t ∧
      (let X := val (s.reg ra)
       let Y := val (s.reg (ra + 1))
       let Z := val (s.reg (ra + 2))
       let M := 3 * ((X - Z ^ 2) * (X + Z ^ 2))
       let S := 4 * (X * Y ^ 2)
       let X3 := M ^ 2 - 2 * S
       let Z3 := 2 * (Y * Z)
       if Z = 0 ∨ Z3 = 0 then HoldsTriple t rd 0 0 0 ∧ t.engine.flags.inf = true
       else HoldsTriple t rd X3 (M * (S - X3) - 8 * Y ^ 4) Z3 ∧ t.engine.flags.inf = false) ∧
      t.engine.flags.c = false ∧ t.engine.flags.v = false ∧
      t.engine.flags.nc = decide (primeP ≤ (s.reg ra).toNat ∨ primeP ≤ (s.reg (ra + 1)).toNat ∨
        primeP ≤ (s.reg (ra + 2)).toNat) ∧
      KeepsAllBut s t [rd, rd + 1, rd + 2])

/-- `p256_point_add_mixed` (R187, R188, R190) in the ring of integers modulo P: the five cases in their order; ILLEGAL_CMD
for a triple base above 13. -/
def Obligations.PointAddMixedFiveCases : Prop :=
  ∀ (rd ra rb : RegNum) (s : State),
    (13 < rd.val ∨ 13 < ra.val ∨ 13 < rb.val →
      ∃ t, exec (.p256PointAddMixed rd ra rb) s = .next t ∧ OnlyErrBecomes s t 1) ∧
    (rd.val ≤ 13 → ra.val ≤ 13 → rb.val ≤ 13 → ∃ t, exec (.p256PointAddMixed rd ra rb) s = .next t ∧
      (let X1 := val (s.reg ra)
       let Y1 := val (s.reg (ra + 1))
       let Z1 := val (s.reg (ra + 2))
       let x2 := val (s.reg rb)
       let y2 := val (s.reg (rb + 1))
       let z2 := val (s.reg (rb + 2))
       let C := x2 * Z1 ^ 2 - X1
       let D := y2 * Z1 ^ 3 - Y1
       let M := 3 * ((x2 - z2 ^ 2) * (x2 + z2 ^ 2))
       let S := 4 * (x2 * y2 ^ 2)
       let V := X1 * C ^ 2
       let X3 := D ^ 2 - 2 * V - C ^ 3
       if z2 = 0 then
         (if Z1 = 0 then HoldsTriple t rd 0 0 0 else HoldsTriple t rd X1 Y1 Z1)
       else if Z1 = 0 then HoldsTriple t rd x2 y2 z2
       else if C = 0 ∧ D = 0 then
         (if 2 * (y2 * z2) = 0 then HoldsTriple t rd 0 0 0
          else HoldsTriple t rd (M ^ 2 - 2 * S) (M * (S - (M ^ 2 - 2 * S)) - 8 * y2 ^ 4) (2 * (y2 * z2)))
       else if C = 0 then HoldsTriple t rd 0 0 0
       else HoldsTriple t rd X3 (D * (V - X3) - Y1 * C ^ 3) (Z1 * C)) ∧
      t.engine.flags.c = false ∧ t.engine.flags.v = false ∧
      t.engine.flags.inf = decide (t.reg (rd + 2) = 0) ∧
      t.engine.flags.nc = decide (primeP ≤ (s.reg ra).toNat ∨ primeP ≤ (s.reg (ra + 1)).toNat ∨
        primeP ≤ (s.reg (ra + 2)).toNat ∨ primeP ≤ (s.reg rb).toNat ∨ primeP ≤ (s.reg (rb + 1)).toNat ∨
        primeP ≤ (s.reg (rb + 2)).toNat) ∧
      KeepsAllBut s t [rd, rd + 1, rd + 2])

/-- `p256_scalar_mult_naf` (R206): the pair holds `ScalarMult(k, x, y)` of the plain scalar and the canonical base point, or
(0, 0) with INF when it is Infinity; ILLEGAL_CMD for a pair base 15. What `ScalarMult` computes on curve points is
ScalarMultIsGroupMultiple. -/
def Obligations.ScalarMultWritesAffineResult : Prop :=
  ∀ (rd ra rb : RegNum) (s : State),
    (rd.val = 15 ∨ rb.val = 15 →
      ∃ t, exec (.p256ScalarMultNaf rd ra rb) s = .next t ∧ OnlyErrBecomes s t 1) ∧
    (rd.val ≤ 14 → rb.val ≤ 14 → ∃ t, exec (.p256ScalarMultNaf rd ra rb) s = .next t ∧
      (∀ x y : Word, x.toNat = (s.reg rb).toNat % primeP → y.toNat = (s.reg (rb + 1)).toNat % primeP →
        (scalarMult (s.reg ra) ⟨x, y⟩ = none →
          t.reg rd = 0 ∧ t.reg (rd + 1) = 0 ∧ t.engine.flags.inf = true) ∧
        (∀ r, scalarMult (s.reg ra) ⟨x, y⟩ = some r →
          t.reg rd = r.x ∧ t.reg (rd + 1) = r.y ∧ t.engine.flags.inf = false)) ∧
      t.engine.flags.c = false ∧ t.engine.flags.v = false ∧
      t.engine.flags.nc = decide (primeP ≤ (s.reg rb).toNat ∨ primeP ≤ (s.reg (rb + 1)).toNat) ∧
      KeepsAllBut s t [rd, rd + 1])

/-- `p256_point_validate` (R220, R221): V says whether `y^2 = x^3 - 3x + B` modulo P; no register is written; ILLEGAL_CMD for
the pair base 15. -/
def Obligations.ValidateDecidesCurveEquation : Prop :=
  ∀ (ra : RegNum) (s : State),
    (ra.val = 15 → ∃ t, exec (.p256PointValidate ra) s = .next t ∧ OnlyErrBecomes s t 1) ∧
    (ra.val ≤ 14 → ∃ t, exec (.p256PointValidate ra) s = .next t ∧
    t.engine.flags = ⟨false, decide (val (s.reg (ra + 1)) ^ 2 = val (s.reg ra) ^ 3 - 3 * val (s.reg ra) + val coeffB),
      false, decide (primeP ≤ (s.reg ra).toNat ∨ primeP ≤ (s.reg (ra + 1)).toNat)⟩ ∧
    KeepsAllBut s t [])

/-- A pair base of 15 or a triple base of 14 or 15 raises ILLEGAL_CMD and changes nothing else (R23, R24, R90; that `exec`
says so itself is log entry 10). -/
def Obligations.OutOfRangeSpecifierFaults : Prop :=
  ∀ (i : Instr) (s : State), i.wf = false → ∃ t, exec i s = .next t ∧ OnlyErrBecomes s t 1

/-- All or nothing (R36, R233, R268): a legal command either completes, changing only its destination registers and the
flags, or it is an inversion of 0 modulo P, which changes only ERR. -/
def Obligations.CommandsWriteAllOrNothing : Prop :=
  ∀ (i : Instr) (s : State), i.wf = true → ∃ t, exec i s = .next t ∧
    (KeepsAllBut s t i.dests ∨
      (OnlyErrBecomes s t 2 ∧ ∃ rd ra, i = .p256FieldInvert rd ra ∧ (s.reg ra).toNat % primeP = 0))

/-- Operand latching (R266): the values written and the flags are the same as with any other destination, so overlap of a
destination with a source changes nothing. -/
def Obligations.DestinationOverlapIsHarmless : Prop :=
  ∀ (i : Instr) (d : RegNum) (s t t' : State), s.engine.err = 0 → i.wf = true → (i.withDest d).wf = true →
    exec i s = .next t → exec (i.withDest d) s = .next t' →
      t.engine.err = t'.engine.err ∧ t.engine.flags = t'.engine.flags ∧
      (t.engine.err = 0 → i.dests.map t.reg = (i.withDest d).dests.map t'.reg)

/-- Nothing but the source registers reaches a result (R19, R36, R38): two machines that agree on them fault alike, and
when they complete, write the same values and the same flags. -/
def Obligations.ResultsDependOnSourcesOnly : Prop :=
  ∀ (i : Instr) (s s' t t' : State), s.engine.err = 0 → s'.engine.err = 0 → (∀ n ∈ i.sources, s.reg n = s'.reg n) →
    exec i s = .next t → exec i s' = .next t' →
      t.engine.err = t'.engine.err ∧
      (t.engine.err = 0 → i.dests.map t.reg = i.dests.map t'.reg ∧ t.engine.flags = t'.engine.flags)

/-- Canonicalisation (R144): a command sees a register it takes as a field element only modulo P. The values it writes and
C, V and INF are those of the canonical values; NC is 1 exactly when some such register is not canonical; the registers
read are not changed by this. -/
def Obligations.FieldOperandsMatterModuloP : Prop :=
  ∀ (i : Instr) (s s' t t' : State), s.engine.err = 0 → s'.engine.err = 0 →
    (∀ n ∈ i.plainSources, s.reg n = s'.reg n) →
    (∀ n ∈ i.fieldSources, (s.reg n).toNat % primeP = (s'.reg n).toNat % primeP) →
    exec i s = .next t → exec i s' = .next t' →
      t.engine.err = t'.engine.err ∧
      (t.engine.err = 0 → i.dests.map t.reg = i.dests.map t'.reg ∧ t.engine.flags.c = t'.engine.flags.c ∧
        t.engine.flags.v = t'.engine.flags.v ∧ t.engine.flags.inf = t'.engine.flags.inf ∧
        (t.engine.flags.nc = true ↔ ∃ n ∈ i.fieldSources, primeP ≤ (s.reg n).toNat)) ∧
      ∀ n, n ∉ i.dests → t.reg n = s.reg n

/-- Every register a completed command writes as a field element holds a canonical value (R25). -/
def Obligations.FieldResultsAreCanonical : Prop :=
  ∀ (i : Instr) (s t : State), i.writesField = true → s.engine.err = 0 → exec i s = .next t → t.engine.err = 0 →
    ∀ n ∈ i.dests, (t.reg n).toNat < primeP

/-- `bigint_mult_256` into any pair and then `p256_mod_reduce` of that pair leaves in `rd` what `p256_fieldmult` leaves
there, on raw operands (R157). -/
def Obligations.MultiplyThenReduceIsFieldMultiply : Prop :=
  ∀ (rd ra rb n : RegNum) (s : State), n.val ≤ 14 → ∃ t u v,
    exec (.bigintMult256 n ra rb) s = .next t ∧ exec (.p256ModReduce rd n) t = .next u ∧
    exec (.p256FieldMult rd ra rb) s = .next v ∧ u.reg rd = v.reg rd

/-! ## The functions the commands are built from -/

/-- `add` limb by limb (R114): `u + v = c * 2^256 + s`, and the carry runs through all 8 limbs. -/
def Obligations.AddCarriesThroughAllLimbs : Prop :=
  ∀ u v : Word, u.toNat + v.toNat = (add u v).2.toNat * 2 ^ 256 + (add u v).1.toNat ∧
    (∀ j < 8, (limb (add u v).1 j).toNat =
      ((limb u j).toNat + (limb v j).toNat + addCarryInto u v j) % 2 ^ 32) ∧
    (add u v).2.toNat = addCarryInto u v 8

/-- `subtractWithBorrow` (R115): `u - v = d - bo * 2^256`, and the borrow is 1 exactly when `u < v`. -/
def Obligations.SubtractReportsBorrow : Prop :=
  ∀ u v : Word, (u.toNat : Int) - v.toNat = (subtractWithBorrow u v).1.toNat - (subtractWithBorrow u v).2.toNat * 2 ^ 256 ∧
    ((subtractWithBorrow u v).2 = true ↔ u.toNat < v.toNat)

/-- `rightShiftOne` (R116): floor division by 2, the bits moving down by one with 0 shifted in. -/
def Obligations.RightShiftHalves : Prop :=
  ∀ (n : Nat) (v : BitVec n), (rightShiftOne v).toNat = v.toNat / 2 ∧
    (∀ i, (rightShiftOne v).getLsbD i = v.getLsbD (i + 1)) ∧ (rightShiftOne v).getLsbD (n - 1) = false

/-- `mostSignificantBitLength` (R117): 0 exactly for 0, otherwise the k in 1 to N with `2^(k-1) <= v < 2^k`. -/
def Obligations.BitLengthBoundsTheValue : Prop :=
  ∀ (n : Nat) (v : BitVec n), (mostSignificantBitLength v = 0 ↔ v = 0#n) ∧
    (v ≠ 0#n → 1 ≤ mostSignificantBitLength v ∧ mostSignificantBitLength v ≤ n ∧
      2 ^ (mostSignificantBitLength v - 1) ≤ v.toNat ∧ v.toNat < 2 ^ mostSignificantBitLength v)

/-- `isZero` and `compare` (R111, R112). -/
def Obligations.CompareAndIsZero : Prop :=
  (∀ (n : Nat) (v : BitVec n), isZero v = true ↔ ∀ i < n, v.getLsbD i = false) ∧
  (∀ u v : Word, (u.toNat < v.toNat → compareUnsigned u v = -1) ∧ (u = v → compareUnsigned u v = 0) ∧
    (v.toNat < u.toNat → compareUnsigned u v = 1))

/-- `mul` (R120): exact, and column by column with carries of any size. -/
def Obligations.MulColumnsWithCarries : Prop :=
  ∀ u v : Word, (mul u v).toNat = u.toNat * v.toNat ∧ sqr u = mul u u ∧
    ∀ k < 16, (mul u v).toNat / 2 ^ (32 * k) % 2 ^ 32 = (mulColumn u v k + mulCarryInto u v k) % 2 ^ 32

/-- The field functions on canonical arguments are the operations modulo P (R145, R146, R147, R152). -/
def Obligations.FieldFunctionsAreModular : Prop :=
  ∀ a b : Word, a.toNat < primeP → b.toNat < primeP →
    (addMod a b).toNat = (a.toNat + b.toNat) % primeP ∧
    ((subMod a b).toNat : Int) = ((a.toNat : Int) - b.toNat) % primeP ∧
    (doubleMod a).toNat = 2 * a.toNat % primeP ∧ doubleMod a = addMod a a ∧
    (times2 a).toNat = 2 * a.toNat % primeP ∧ (times3 a).toNat = 3 * a.toNat % primeP ∧
    (times4 a).toNat = 4 * a.toNat % primeP ∧ (times8 a).toNat = 8 * a.toNat % primeP

/-- The field laws (R159) of the field functions, for all canonical a, b, c: `addMod` and `mulMod` are commutative and
associative, `mulMod` distributes over `addMod`, 0 and 1 are their neutral values, subtraction is addition of the negation,
every a other than 0 has its inverse, a product is 0 only when a factor is, and every result is in [0, P).
Nothing is said of `invMod(0)`, which has no value (R150; log entry 11). -/
def Obligations.FieldLaws : Prop :=
  ∀ a b c : Word, a.toNat < primeP → b.toNat < primeP → c.toNat < primeP →
    addMod a b = addMod b a ∧ addMod (addMod a b) c = addMod a (addMod b c) ∧
    mulMod a b = mulMod b a ∧ mulMod (mulMod a b) c = mulMod a (mulMod b c) ∧
    mulMod a (addMod b c) = addMod (mulMod a b) (mulMod a c) ∧
    addMod a 0 = a ∧ mulMod a 1 = a ∧ mulMod a 0 = 0 ∧
    subMod a b = addMod a (subMod 0 b) ∧ subMod a a = 0 ∧
    (a ≠ 0 → mulMod a (invMod a) = 1 ∧ (invMod a).toNat < primeP) ∧ (mulMod a b = 0 → a = 0 ∨ b = 0) ∧
    (addMod a b).toNat < primeP ∧ (subMod a b).toNat < primeP ∧ (doubleMod a).toNat < primeP ∧
    (mulMod a b).toNat < primeP ∧ (sqrMod a).toNat < primeP

/-- `invMod(a)` for a in [1, P-1] (R150): the unique c in [1, P-1] with `a * c = 1` modulo P, equal to `a^(P-2)` modulo P. -/
def Obligations.InvModIsTheUniqueInverse : Prop :=
  ∀ a : Word, 0 < a.toNat → a.toNat < primeP →
    1 ≤ (invMod a).toNat ∧ (invMod a).toNat ≤ primeP - 1 ∧ a.toNat * (invMod a).toNat % primeP = 1 ∧
    (∀ c, 1 ≤ c → c ≤ primeP - 1 → a.toNat * c % primeP = 1 → c = (invMod a).toNat) ∧
    (invMod a).toNat = a.toNat ^ (primeP - 2) % primeP

/-- The fast reduction of R154 is the normative reduction of R153 on every 512-bit value. -/
def Obligations.FastReductionIsReduction : Prop :=
  ∀ t : DoubleWord, fastReduce t = reduce t ∧ (reduce t).toNat = t.toNat % primeP

/-- The folded sum of R154 stays above -4P and below 6P, so four additions or five subtractions of P finish the reduction
(the model's own bound; log entry 15). -/
def Obligations.FoldedSumWithinSixP : Prop :=
  ∀ t : DoubleWord, -4 * (primeP : Int) < foldedSum t ∧ foldedSum t < 6 * (primeP : Int)

/-- The bound R154 prints for the folded sum: between -4P and 5P. It FAILS: some 512-bit values fold to more than 5P
(log entry 15). The rule is informative, and R153 governs. -/
def Obligations.FoldedSumBelowFiveP : Prop :=
  ∀ t : DoubleWord, -4 * (primeP : Int) < foldedSum t ∧ foldedSum t < 5 * (primeP : Int)

/-- `NafEncode` (R202): (a) the digits re-sum to k; (b) no two adjacent digits are non-zero; (c) no digit exactly for k = 0,
and a top digit +1 otherwise; (d) the count is the bit length or one more, at most 257, and 257 from
`(2^257 + 1) / 3` upward. -/
def Obligations.NafEncodeIsNonAdjacentForm : Prop :=
  ∀ k : Word, nafValue (nafEncode k) = k.toNat ∧
    (∀ i, (nafEncode k)[i]? = some .zero ∨ (nafEncode k)[i + 1]? = some .zero ∨ (nafEncode k).length ≤ i + 1) ∧
    (nafEncode k = [] ↔ k = 0) ∧ (k ≠ 0 → (nafEncode k).getLast? = some .plusOne) ∧
    (mostSignificantBitLength k ≤ (nafEncode k).length ∧
      (nafEncode k).length ≤ mostSignificantBitLength k + 1 ∧ (nafEncode k).length ≤ 257) ∧
    ((2 ^ 257 + 1) / 3 ≤ k.toNat → (nafEncode k).length = 257)

/-- The digit strings R203 lists. -/
def Obligations.NafOfListedScalars : Prop :=
  nafEncode 0 = [] ∧ nafEncode 1 = [.plusOne] ∧ nafEncode 2 = [.zero, .plusOne] ∧
  nafEncode 3 = [.minusOne, .zero, .plusOne] ∧ nafEncode 5 = [.plusOne, .zero, .plusOne] ∧
  nafEncode 7 = [.minusOne, .zero, .zero, .plusOne] ∧
  nafEncode 11 = [.minusOne, .zero, .minusOne, .zero, .plusOne] ∧
  nafEncode 0xAAAAAAAAAAAAAAAAAAAAAAAAAAAAAAAAAAAAAAAAAAAAAAAAAAAAAAAAAAAAAAAA =
    (List.range 256).map (fun i => if i % 2 = 1 then .plusOne else .zero) ∧
  nafEncode 0x5555555555555555555555555555555555555555555555555555555555555555 =
    (List.range 255).map (fun i => if i % 2 = 0 then .plusOne else .zero) ∧
  nafEncode (BitVec.allOnes 256) = [.minusOne] ++ List.replicate 255 .zero ++ [.plusOne]

/-- The infinity laws of R191: `add(P, infinity) = P`, `add(infinity, P) = P`, `double(infinity) = infinity`, and
`add(P, P) = double(P)` for a point given twice with Z = 1. -/
def Obligations.InfinityAndSelfAdditionLaws : Prop :=
  (∀ p q : Jacobian, q.z = 0 → p.z ≠ 0 → pointAddMixed p q = p) ∧
  (∀ p q : Jacobian, p.z = 0 → q.z ≠ 0 → pointAddMixed p q = q) ∧
  (∀ p : Jacobian, p.z = 0 → pointDouble p = ⟨0, 0, 0⟩) ∧
  (∀ x y : Word, x.toNat < primeP → y.toNat < primeP → pointAddMixed ⟨x, y, 1⟩ ⟨x, y, 1⟩ = pointDouble ⟨x, y, 1⟩)

/-! ## What the point commands mean on the curve -/

/-- For a triple that represents a point A of the curve, `p256_point_double` leaves a triple that represents A + A, with INF
exactly when that is the identity (R185). -/
def Obligations.PointDoubleIsGroupDoubling : Prop :=
  ∀ [Fact (Nat.Prime primeP)] (rd ra : RegNum) (s : State) (A : p256.Point), rd.val ≤ 13 → ra.val ≤ 13 →
    Represents (s.engine.jacobian ra) A →
      ∃ t, exec (.p256PointDouble rd ra) s = .next t ∧ Represents (t.engine.jacobian rd) (A + A) ∧
        (t.engine.flags.inf = true ↔ A + A = 0)

/-- For triples that represent points A and B of the curve, B given with Z = 0 or Z = 1, `p256_point_add_mixed` leaves a
triple that represents A + B, with INF exactly when that is the identity (R187, R188, R189). -/
def Obligations.PointAddMixedIsGroupAddition : Prop :=
  ∀ [Fact (Nat.Prime primeP)] (rd ra rb : RegNum) (s : State) (A B : p256.Point),
    rd.val ≤ 13 → ra.val ≤ 13 → rb.val ≤ 13 →
    Represents (s.engine.jacobian ra) A → Represents (s.engine.jacobian rb) B →
    (val (s.reg (rb + 2)) = 0 ∨ val (s.reg (rb + 2)) = 1) →
      ∃ t, exec (.p256PointAddMixed rd ra rb) s = .next t ∧ Represents (t.engine.jacobian rd) (A + B) ∧
        (t.engine.flags.inf = true ↔ A + B = 0)

/-- For a base point on the curve, `p256_scalar_mult_naf` leaves the affine coordinates of `k * (x, y)` in the group of the
curve, canonical, and INF with (0, 0) exactly when that is the identity, for every 256-bit scalar k (R207). -/
def Obligations.ScalarMultIsGroupMultiple : Prop :=
  ∀ [Fact (Nat.Prime primeP)] (rd ra rb : RegNum) (s : State), rd.val ≤ 14 → rb.val ≤ 14 →
    isOnCurve (s.engine.affine rb) = true →
      ∃ t, exec (.p256ScalarMultNaf rd ra rb) s = .next t ∧
        ∃ h : p256.Nonsingular (val (s.reg rb)) (val (s.reg (rb + 1))),
          match (s.reg ra).toNat • (WeierstrassCurve.Affine.Point.some _ _ h) with
          | .zero => HoldsPair t rd 0 0 ∧ t.engine.flags.inf = true
          | .some x y _ => HoldsPair t rd x y ∧ t.engine.flags.inf = false

/-- Key agreement is symmetric bit for bit, and its results are on the curve: for a base point on the curve,
`multiply(a, multiply(b, G)) = multiply(b, multiply(a, G))` when neither inner result is infinity, and `multiply(0, G)` is
the point at infinity (R208). -/
def Obligations.KeyAgreementIsSymmetric : Prop :=
  ∀ (a b : Word) (g p q : Affine), g.x.toNat < primeP → g.y.toNat < primeP → isOnCurve g = true →
    scalarMult 0 g = none ∧
    (scalarMult a g = some p → scalarMult b g = some q →
      isOnCurve p = true ∧ isOnCurve q = true ∧ scalarMult a q = scalarMult b p)

/-! ## The invariant -/

/-- Every step keeps the invariant: ERR stays one of 0, 1 and 2 and LASTCMD names its cause, and the flags are those of one
completed command (R28 to R32, R34, R36, R231). -/
def Obligations.StepKeepsInvariant : Prop :=
  ∀ s t : State, EngineInv s → step s = .next t → EngineInv t

/-- The invariant holds right after reset (R39). -/
def Obligations.ResetHasInvariant : Prop := EngineInv State.reset
end

