-- ==== Sys2Proof/Laws/Decode.lean ====
section
/-! SUPPORT. The fields of a command word as numbers, and what the encoder puts into them (spec/30_encoding.md R81). -/

namespace Sys2Proof.Laws

open Machine

/-! ### Fields as numbers -/

theorem opField_toNat (w : CmdWord) : (opField w).toNat = w.toNat / 2 ^ 24 := by
  have := w.isLt
  unfold opField
  rw [BitVec.extractLsb'_toNat, Nat.shiftRight_eq_div_pow, Nat.mod_eq_of_lt (by omega)]

theorem specifier_val (w : CmdWord) (lo : Nat) : (specifier w lo).val = w.toNat / 2 ^ lo % 16 := by
  unfold specifier
  rw [BitVec.val_toFin, BitVec.extractLsb'_toNat, Nat.shiftRight_eq_div_pow]

theorem rdField_val (w : CmdWord) : (rdField w).val = w.toNat / 2 ^ 20 % 16 := specifier_val w 20
theorem raField_val (w : CmdWord) : (raField w).val = w.toNat / 2 ^ 16 % 16 := specifier_val w 16
theorem rbField_val (w : CmdWord) : (rbField w).val = w.toNat / 2 ^ 12 % 16 := specifier_val w 12

theorem zeroField_toNat (w : CmdWord) : (zeroField w).toNat = w.toNat % 2 ^ 12 := by
  unfold zeroField
  rw [BitVec.extractLsb'_toNat, Nat.shiftRight_zero]

theorem zeroField_eq_zero (w : CmdWord) : zeroField w = 0 ↔ w.toNat % 2 ^ 12 = 0 := by
  rw [← zeroField_toNat, ← BitVec.toNat_inj]; rfl

/-! ### The encoder's word -/

theorem toNat_append_lt {n m : Nat} (x : BitVec n) (y : BitVec m) : (x ++ y).toNat = x.toNat * 2 ^ m + y.toNat := by
  rw [BitVec.toNat_append, ← Nat.shiftLeft_add_eq_or_of_lt y.isLt, Nat.shiftLeft_eq]

theorem wordOf_toNat (op : BitVec 8) (rd ra rb : RegNum) :
    (wordOf op rd ra rb).toNat = op.toNat * 2 ^ 24 + rd.val * 2 ^ 20 + ra.val * 2 ^ 16 + rb.val * 2 ^ 12 := by
  unfold wordOf
  rw [toNat_append_lt, toNat_append_lt, toNat_append_lt, toNat_append_lt]
  simp only [BitVec.toNat_ofFin, BitVec.toNat_ofNat]
  omega

@[simp] theorem opField_wordOf (op : BitVec 8) (rd ra rb : RegNum) : opField (wordOf op rd ra rb) = op := by
  have h1 := rd.isLt; have h2 := ra.isLt; have h3 := rb.isLt
  rw [← BitVec.toNat_inj, opField_toNat, wordOf_toNat]; omega

@[simp] theorem rdField_wordOf (op : BitVec 8) (rd ra rb : RegNum) : rdField (wordOf op rd ra rb) = rd := by
  have h1 := rd.isLt; have h2 := ra.isLt; have h3 := rb.isLt
  apply Fin.ext; rw [rdField_val, wordOf_toNat]; omega

@[simp] theorem raField_wordOf (op : BitVec 8) (rd ra rb : RegNum) : raField (wordOf op rd ra rb) = ra := by
  have h1 := rd.isLt; have h2 := ra.isLt; have h3 := rb.isLt
  apply Fin.ext; rw [raField_val, wordOf_toNat]; omega

@[simp] theorem rbField_wordOf (op : BitVec 8) (rd ra rb : RegNum) : rbField (wordOf op rd ra rb) = rb := by
  have h1 := rd.isLt; have h2 := ra.isLt; have h3 := rb.isLt
  apply Fin.ext; rw [rbField_val, wordOf_toNat]; omega

@[simp] theorem zeroField_wordOf (op : BitVec 8) (rd ra rb : RegNum) : zeroField (wordOf op rd ra rb) = 0 := by
  rw [zeroField_eq_zero, wordOf_toNat]; omega

/-- A word is put together from its own fields when its `zero` field is zero. -/
theorem wordOf_fields {w : CmdWord} (h : zeroField w = 0) :
    wordOf (opField w) (rdField w) (raField w) (rbField w) = w := by
  have hw := w.isLt
  rw [zeroField_eq_zero] at h
  rw [← BitVec.toNat_inj, wordOf_toNat, opField_toNat, rdField_val, raField_val, rbField_val]
  omega

/-! ### What the decoder's two parts say -/

/-- The decoder answers `i` exactly when the word passes the checks and its opcode selects `i`. -/
theorem decode_ok_iff (w : CmdWord) (i : Instr) :
    decode w = .ok i ↔ illegality w = none ∧ select (opField w) (rdField w) (raField w) (rbField w) = some i := by
  unfold decode
  cases illegality w with
  | some e => simp
  | none => cases select (opField w) (rdField w) (raField w) (rbField w) <;> simp

/-- The checks of R90, as a conjunction. -/
theorem illegality_eq_none_iff (w : CmdWord) :
    illegality w = none ↔ ∃ r, rowOf (opField w) = some r ∧ zeroField w = 0 ∧ r.all Shape.unusedOk w = true ∧
      r.all Shape.pairOk w = true ∧ r.all Shape.tripleOk w = true := by
  unfold illegality
  cases rowOf (opField w) with
  | none => simp
  | some r =>
    by_cases hz : zeroField w = 0 <;> cases h1 : r.all Shape.unusedOk w <;> cases h2 : r.all Shape.pairOk w <;>
      cases h3 : r.all Shape.tripleOk w <;> simp_all

/-- An opcode has a row exactly when it selects a command. -/
theorem rowOf_eq_none_iff (op : BitVec 8) (rd ra rb : RegNum) : rowOf op = none ↔ select op rd ra rb = none := by
  unfold rowOf select
  repeat' split
  all_goals simp_all

/-- The ten opcodes and the commands they select (R85). -/
theorem select_cases {op : BitVec 8} {rd ra rb : RegNum} {i : Instr} (h : select op rd ra rb = some i) :
    (op = 1 ∧ i = .bigintAdd256 rd ra rb) ∨ (op = 2 ∧ i = .bigintMult256 rd ra rb) ∨
    (op = 3 ∧ i = .p256ModReduce rd ra) ∨ (op = 4 ∧ i = .p256FieldAdd rd ra rb) ∨
    (op = 5 ∧ i = .p256FieldMult rd ra rb) ∨ (op = 6 ∧ i = .p256FieldInvert rd ra) ∨
    (op = 7 ∧ i = .p256PointDouble rd ra) ∨ (op = 8 ∧ i = .p256PointAddMixed rd ra rb) ∨
    (op = 9 ∧ i = .p256ScalarMultNaf rd ra rb) ∨ (op = 10 ∧ i = .p256PointValidate ra) := by
  unfold select at h
  repeat' split at h
  all_goals simp_all

end Sys2Proof.Laws
end

