-- ==== Sys2Proof/Laws/State.lean ====
section
/-! SUPPORT. One lemma per field per update, true by `rfl`, so that no later proof unfolds a record update. -/

namespace Sys2Proof.Machine

/-! ### `Engine.setReg` and `Engine.writeAll` -/

@[simp] theorem Engine.setReg_flags (e : Engine) (n : RegNum) (v : Word) : (e.setReg n v).flags = e.flags := rfl
@[simp] theorem Engine.setReg_err (e : Engine) (n : RegNum) (v : Word) : (e.setReg n v).err = e.err := rfl
@[simp] theorem Engine.setReg_lastCmd (e : Engine) (n : RegNum) (v : Word) : (e.setReg n v).lastCmd = e.lastCmd := rfl

/-- Reading a register after a write (R21: all registers are alike). -/
theorem Engine.reg_setReg (e : Engine) (n m : RegNum) (v : Word) :
    (e.setReg n v).reg m = if m = n then v else e.reg m := by
  unfold Engine.reg Engine.setReg
  by_cases h : m = n
  · subst h; simp
  · have hne : (n : Nat) ≠ (m : Nat) := fun h' => h (Fin.ext h'.symm)
    simp [h, hne]

@[simp] theorem Engine.writeAll_nil (e : Engine) : e.writeAll [] = e := rfl
@[simp] theorem Engine.writeAll_cons (e : Engine) (w : RegNum × Word) (ws : List (RegNum × Word)) :
    e.writeAll (w :: ws) = (e.setReg w.1 w.2).writeAll ws := rfl

@[simp] theorem Engine.writeAll_flags (e : Engine) (ws : List (RegNum × Word)) : (e.writeAll ws).flags = e.flags := by
  induction ws generalizing e with
  | nil => rfl
  | cons w ws ih => simp [ih]

@[simp] theorem Engine.writeAll_err (e : Engine) (ws : List (RegNum × Word)) : (e.writeAll ws).err = e.err := by
  induction ws generalizing e with
  | nil => rfl
  | cons w ws ih => simp [ih]

@[simp] theorem Engine.writeAll_lastCmd (e : Engine) (ws : List (RegNum × Word)) :
    (e.writeAll ws).lastCmd = e.lastCmd := by
  induction ws generalizing e with
  | nil => rfl
  | cons w ws ih => simp [ih]

/-- A register none of the writes names keeps its value. -/
theorem Engine.reg_writeAll_of_notMem (e : Engine) (ws : List (RegNum × Word)) (n : RegNum)
    (h : n ∉ ws.map Prod.fst) : (e.writeAll ws).reg n = e.reg n := by
  induction ws generalizing e with
  | nil => rfl
  | cons w ws ih =>
    simp only [List.map_cons, List.mem_cons, not_or] at h
    rw [Engine.writeAll_cons, ih _ h.2, Engine.reg_setReg, if_neg h.1]

/-! ### `State.complete` -/

@[simp] theorem State.complete_flags (s : State) (ws : List (RegNum × Word)) (f : Flags) :
    (s.complete ws f).engine.flags = f := rfl
@[simp] theorem State.complete_err (s : State) (ws : List (RegNum × Word)) (f : Flags) :
    (s.complete ws f).engine.err = s.engine.err := s.engine.writeAll_err ws
@[simp] theorem State.complete_lastCmd (s : State) (ws : List (RegNum × Word)) (f : Flags) :
    (s.complete ws f).engine.lastCmd = s.engine.lastCmd := s.engine.writeAll_lastCmd ws
@[simp] theorem State.complete_inReset (s : State) (ws : List (RegNum × Word)) (f : Flags) :
    (s.complete ws f).inReset = s.inReset := rfl
@[simp] theorem State.complete_host (s : State) (ws : List (RegNum × Word)) (f : Flags) :
    (s.complete ws f).host = s.host := rfl
@[simp] theorem State.complete_log (s : State) (ws : List (RegNum × Word)) (f : Flags) :
    (s.complete ws f).log = s.log := rfl
@[simp] theorem State.complete_reg (s : State) (ws : List (RegNum × Word)) (f : Flags) (n : RegNum) :
    (s.complete ws f).engine.reg n = (s.engine.writeAll ws).reg n := rfl

/-! ### `State.raise` -/

@[simp] theorem State.raise_err (s : State) (f : FaultCode) : (s.raise f).engine.err = f.code := rfl
@[simp] theorem State.raise_flags (s : State) (f : FaultCode) : (s.raise f).engine.flags = s.engine.flags := rfl
@[simp] theorem State.raise_lastCmd (s : State) (f : FaultCode) : (s.raise f).engine.lastCmd = s.engine.lastCmd := rfl
@[simp] theorem State.raise_reg (s : State) (f : FaultCode) (n : RegNum) :
    (s.raise f).engine.reg n = s.engine.reg n := rfl
@[simp] theorem State.raise_inReset (s : State) (f : FaultCode) : (s.raise f).inReset = s.inReset := rfl
@[simp] theorem State.raise_host (s : State) (f : FaultCode) : (s.raise f).host = s.host := rfl
@[simp] theorem State.raise_log (s : State) (f : FaultCode) : (s.raise f).log = s.log := rfl

/-! ### `State.setLastCmd`, `State.respond`, `State.writeLimb` -/

@[simp] theorem State.setLastCmd_lastCmd (s : State) (w : CmdWord) : (s.setLastCmd w).engine.lastCmd = w := rfl
@[simp] theorem State.setLastCmd_err (s : State) (w : CmdWord) : (s.setLastCmd w).engine.err = s.engine.err := rfl
@[simp] theorem State.setLastCmd_flags (s : State) (w : CmdWord) : (s.setLastCmd w).engine.flags = s.engine.flags := rfl
@[simp] theorem State.setLastCmd_reg (s : State) (w : CmdWord) (n : RegNum) :
    (s.setLastCmd w).engine.reg n = s.engine.reg n := rfl
@[simp] theorem State.setLastCmd_inReset (s : State) (w : CmdWord) : (s.setLastCmd w).inReset = s.inReset := rfl
@[simp] theorem State.setLastCmd_host (s : State) (w : CmdWord) : (s.setLastCmd w).host = s.host := rfl
@[simp] theorem State.setLastCmd_log (s : State) (w : CmdWord) : (s.setLastCmd w).log = s.log := rfl

@[simp] theorem State.respond_engine (s : State) (r : Response) : (s.respond r).engine = s.engine := rfl
@[simp] theorem State.respond_inReset (s : State) (r : Response) : (s.respond r).inReset = s.inReset := rfl
@[simp] theorem State.respond_host (s : State) (r : Response) : (s.respond r).host = s.host := rfl
@[simp] theorem State.respond_log (s : State) (r : Response) : (s.respond r).log = s.log ++ [r] := rfl

@[simp] theorem State.writeLimb_flags (s : State) (i : RegNum) (j : Fin 8) (v : Limb) :
    (s.writeLimb i j v).engine.flags = s.engine.flags := rfl
@[simp] theorem State.writeLimb_err (s : State) (i : RegNum) (j : Fin 8) (v : Limb) :
    (s.writeLimb i j v).engine.err = s.engine.err := rfl
@[simp] theorem State.writeLimb_lastCmd (s : State) (i : RegNum) (j : Fin 8) (v : Limb) :
    (s.writeLimb i j v).engine.lastCmd = s.engine.lastCmd := rfl
@[simp] theorem State.writeLimb_inReset (s : State) (i : RegNum) (j : Fin 8) (v : Limb) :
    (s.writeLimb i j v).inReset = s.inReset := rfl
@[simp] theorem State.writeLimb_host (s : State) (i : RegNum) (j : Fin 8) (v : Limb) :
    (s.writeLimb i j v).host = s.host := rfl
@[simp] theorem State.writeLimb_log (s : State) (i : RegNum) (j : Fin 8) (v : Limb) :
    (s.writeLimb i j v).log = s.log := rfl

/-! ### `State.resetEngine` -/

@[simp] theorem State.resetEngine_engine (s : State) : s.resetEngine.engine = Engine.reset := rfl
@[simp] theorem State.resetEngine_inReset (s : State) : s.resetEngine.inReset = s.inReset := rfl
@[simp] theorem State.resetEngine_host (s : State) : s.resetEngine.host = s.host := rfl
@[simp] theorem State.resetEngine_log (s : State) : s.resetEngine.log = s.log := rfl

@[simp] theorem Engine.reset_reg (n : RegNum) : Engine.reset.reg n = 0 := by
  simp [Engine.reset, Engine.reg]
@[simp] theorem Engine.reset_flags : Engine.reset.flags = Flags.none := rfl
@[simp] theorem Engine.reset_err : Engine.reset.err = 0 := rfl
@[simp] theorem Engine.reset_lastCmd : Engine.reset.lastCmd = 0 := rfl

end Sys2Proof.Machine
end

