-- ==== Sys2Proof/Laws/Exec.lean ====
section
/-! SUPPORT. What running a command can do, said once: `exec` answers the state `outcomeOf` names, and that state is the
completed one, or the one with INV_ZERO, or the one with ILLEGAL_CMD (spec/30_encoding.md R89). -/

namespace Sys2Proof.Laws

open Machine

/-- The destination writes of a command, from the registers before any write (R266). -/
def writesOf (e : Engine) : Instr → List (RegNum × Word)
  | .bigintAdd256 rd ra rb => [(rd, (add (e.single ra) (e.single rb)).1)]
  | .bigintMult256 rd ra rb =>
    pairWrites rd (lowHalf (mul (e.single ra) (e.single rb))) (highHalf (mul (e.single ra) (e.single rb)))
  | .p256ModReduce rd ra => [(rd, reduce (e.pairInt ra))]
  | .p256FieldAdd rd ra rb => [(rd, addMod (e.field ra) (e.field rb))]
  | .p256FieldMult rd ra rb => [(rd, mulMod (e.field ra) (e.field rb))]
  | .p256FieldInvert rd ra => [(rd, invMod (e.field ra))]
  | .p256PointDouble rd ra => (pointDouble (e.jacobian ra)).writes rd
  | .p256PointAddMixed rd ra rb => (pointAddMixed (e.jacobian ra) (e.jacobian rb)).writes rd
  | .p256ScalarMultNaf rd ra rb =>
    pairWrites rd (affineOrZero (scalarMult (e.single ra) (e.affine rb))).x
      (affineOrZero (scalarMult (e.single ra) (e.affine rb))).y
  | .p256PointValidate _ => []

/-- The flags of a completed command (R36). -/
def flagsOf (e : Engine) : Instr → Flags
  | .bigintAdd256 _ ra rb => Flags.ofCarry (add (e.single ra) (e.single rb)).2
  | .bigintMult256 _ _ _ => Flags.none
  | .p256ModReduce _ _ => Flags.none
  | .p256FieldAdd _ ra rb => Flags.ofField (e.ncSingle ra || e.ncSingle rb)
  | .p256FieldMult _ ra rb => Flags.ofField (e.ncSingle ra || e.ncSingle rb)
  | .p256FieldInvert _ ra => Flags.ofField (e.ncSingle ra)
  | .p256PointDouble _ ra => Flags.ofPoint (pointDouble (e.jacobian ra)).isInfinity (e.ncTriple ra)
  | .p256PointAddMixed _ ra rb =>
    Flags.ofPoint (pointAddMixed (e.jacobian ra) (e.jacobian rb)).isInfinity (e.ncTriple ra || e.ncTriple rb)
  | .p256ScalarMultNaf _ ra rb => Flags.ofPoint (scalarMult (e.single ra) (e.affine rb)).isNone (e.ncPair rb)
  | .p256PointValidate ra => Flags.ofVerdict (isOnCurve (e.affine ra)) (e.ncPair ra)

/-- The command is an inversion of 0 modulo P (R158). -/
def invertsZero (e : Engine) : Instr → Bool
  | .p256FieldInvert _ ra => isZero (e.field ra)
  | .bigintAdd256 _ _ _ => false
  | .bigintMult256 _ _ _ => false
  | .p256ModReduce _ _ => false
  | .p256FieldAdd _ _ _ => false
  | .p256FieldMult _ _ _ => false
  | .p256PointDouble _ _ => false
  | .p256PointAddMixed _ _ _ => false
  | .p256ScalarMultNaf _ _ _ => false
  | .p256PointValidate _ => false

/-- The state a command leaves. -/
def outcomeOf (i : Instr) (s : State) : State :=
  if i.wf then
    if invertsZero s.engine i then s.raise .invZero else s.complete (writesOf s.engine i) (flagsOf s.engine i)
  else s.raise .illegalCmd

/-- `exec` always answers a next state, and this is it. -/
theorem exec_eq (i : Instr) (s : State) : exec i s = .next (outcomeOf i s) := by
  unfold outcomeOf
  cases i <;>
    simp only [exec, execBigintAdd256, execBigintMult256, execP256ModReduce, execP256FieldAdd, execP256FieldMult,
      execP256FieldInvert, execP256PointDouble, execP256PointAddMixed, execP256ScalarMultNaf, execP256PointValidate,
      State.runLegal, invertsZero, writesOf, flagsOf, Bool.false_eq_true, if_false] <;>
    split <;> rfl

theorem exec_next_iff (i : Instr) (s t : State) : exec i s = .next t ↔ outcomeOf i s = t := by
  rw [exec_eq]; simp

theorem outcomeOf_of_not_wf {i : Instr} (s : State) (h : i.wf = false) : outcomeOf i s = s.raise .illegalCmd := by
  simp [outcomeOf, h]

theorem outcomeOf_of_invertsZero {i : Instr} {s : State} (h : i.wf = true) (h0 : invertsZero s.engine i = true) :
    outcomeOf i s = s.raise .invZero := by
  simp [outcomeOf, h, h0]

theorem outcomeOf_of_completes {i : Instr} {s : State} (h : i.wf = true) (h0 : invertsZero s.engine i = false) :
    outcomeOf i s = s.complete (writesOf s.engine i) (flagsOf s.engine i) := by
  simp [outcomeOf, h, h0]

/-- The three ways a command ends. -/
theorem outcomeOf_cases (i : Instr) (s : State) :
    (i.wf = false ∧ outcomeOf i s = s.raise .illegalCmd) ∨
    (i.wf = true ∧ invertsZero s.engine i = true ∧ outcomeOf i s = s.raise .invZero) ∨
    (i.wf = true ∧ invertsZero s.engine i = false ∧
      outcomeOf i s = s.complete (writesOf s.engine i) (flagsOf s.engine i)) := by
  cases hw : i.wf with
  | false => exact .inl ⟨rfl, outcomeOf_of_not_wf s hw⟩
  | true =>
    cases h0 : invertsZero s.engine i with
    | true => exact .inr (.inl ⟨rfl, rfl, outcomeOf_of_invertsZero hw h0⟩)
    | false => exact .inr (.inr ⟨rfl, rfl, outcomeOf_of_completes hw h0⟩)

/-- A command writes exactly its destination registers (R83). -/
theorem writesOf_regs (e : Engine) (i : Instr) : (writesOf e i).map Prod.fst = i.dests := by
  cases i <;> rfl

/-- Running a command touches nothing around the engine. -/
theorem outcomeOf_around (i : Instr) (s : State) : SameAround s (outcomeOf i s) := by
  obtain ⟨-, h⟩ | ⟨-, -, h⟩ | ⟨-, -, h⟩ := outcomeOf_cases i s <;> rw [h] <;> exact ⟨rfl, rfl, rfl⟩

/-- Running a command leaves LASTCMD as it is (R34: the CMD write has set it). -/
theorem outcomeOf_lastCmd (i : Instr) (s : State) : (outcomeOf i s).engine.lastCmd = s.engine.lastCmd := by
  obtain ⟨-, h⟩ | ⟨-, -, h⟩ | ⟨-, -, h⟩ := outcomeOf_cases i s <;> rw [h] <;> simp

end Sys2Proof.Laws
end

