-- ==== Sys2Proof/Laws/Field.lean ====
section
/-! SUPPORT. What each field function of spec/41_field.md computes, once as numbers modulo P and once in the ring of
integers modulo P. Later proofs cite these and do not unfold the functions. -/

namespace Sys2Proof.Laws

open Machine

/-! ### The prime's size (R140) -/

theorem primeP_lt : primeP < 2 ^ 256 := by norm_num [primeP]
theorem lt_two_primeP : 2 ^ 256 < 2 * primeP := by norm_num [primeP]
theorem primeP_pos : 0 < primeP := by norm_num [primeP]

theorem mod_primeP_lt (n : Nat) : n % primeP < 2 ^ 256 :=
  (Nat.mod_lt _ primeP_pos).trans primeP_lt

/-- `x mod P` for `x` in `[P, 2P)` is one subtraction away (R143). -/
theorem mod_of_once {x : Nat} (h1 : primeP ≤ x) (h2 : x < 2 * primeP) : x % primeP = x - primeP := by
  rw [Nat.mod_eq_sub_mod h1, Nat.mod_eq_of_lt (by omega)]

/-! ### As numbers -/

theorem toNat_ofNat_mod (n : Nat) : (BitVec.ofNat 256 (n % primeP)).toNat = n % primeP := by
  rw [BitVec.toNat_ofNat, Nat.mod_eq_of_lt (mod_primeP_lt n)]

/-- `canon(v) = v mod P` (R143). -/
theorem canon_toNat (v : Word) : (canon v).toNat = v.toNat % primeP := by
  have h1 := lt_two_primeP
  have h2 := v.isLt
  unfold canon
  split
  · next h => rw [Nat.mod_eq_of_lt h]
  · next h =>
    rw [mod_of_once (by omega) (by omega), BitVec.toNat_ofNat, Nat.mod_eq_of_lt (by omega)]

theorem canon_lt (v : Word) : (canon v).toNat < primeP := by
  rw [canon_toNat]; exact Nat.mod_lt _ primeP_pos

/-- A canonical value is its own canonical form. -/
theorem canon_of_lt {v : Word} (h : v.toNat < primeP) : canon v = v := by
  unfold canon; rw [if_pos h]

theorem field_lt (e : Engine) (n : RegNum) : (e.field n).toNat < primeP := canon_lt _

/-- `mul` is exact (R120). -/
theorem mul_toNat (u v : Word) : (mul u v).toNat = u.toNat * v.toNat := by
  have h : u.toNat * v.toNat < 2 ^ 256 * 2 ^ 256 := Nat.mul_lt_mul'' u.isLt v.isLt
  unfold mul
  rw [BitVec.toNat_ofNat, Nat.mod_eq_of_lt (h.trans_eq (pow_add 2 256 256).symm)]

/-- `reduce(T) = T mod P` (R153). -/
theorem reduce_toNat (t : DoubleWord) : (reduce t).toNat = t.toNat % primeP := toNat_ofNat_mod _

theorem mulMod_toNat (a b : Word) : (mulMod a b).toNat = a.toNat * b.toNat % primeP := by
  unfold mulMod; rw [reduce_toNat, mul_toNat]

theorem mulMod_lt (a b : Word) : (mulMod a b).toNat < primeP := by
  rw [mulMod_toNat]; exact Nat.mod_lt _ primeP_pos

theorem reduce_lt (t : DoubleWord) : (reduce t).toNat < primeP := by
  rw [reduce_toNat]; exact Nat.mod_lt _ primeP_pos

/-- `add`: `u + v = c * 2^256 + s` (R114). -/
theorem add_spec (u v : Word) :
    (add u v).2.toNat * 2 ^ 256 + (add u v).1.toNat = u.toNat + v.toNat := by
  have hu := u.isLt
  have hv := v.isLt
  have ht : (BitVec.setWidth 257 u + BitVec.setWidth 257 v).toNat = u.toNat + v.toNat := by
    rw [BitVec.toNat_add, BitVec.toNat_setWidth, BitVec.toNat_setWidth, Nat.mod_eq_of_lt (a := u.toNat) (by omega),
      Nat.mod_eq_of_lt (a := v.toNat) (by omega), Nat.mod_eq_of_lt (by omega)]
  unfold add
  simp only [BitVec.toNat_setWidth, ht, BitVec.getLsbD, Nat.testBit_eq_decide_div_mod_eq]
  by_cases h : u.toNat + v.toNat < 2 ^ 256
  · rw [Nat.div_eq_of_lt h, Nat.mod_eq_of_lt h]; simp
  · have : (u.toNat + v.toNat) / 2 ^ 256 = 1 := by omega
    rw [this]; simp only [Nat.one_mod, decide_true, Bool.toNat_true]; omega

/-- The one conditional subtraction is a reduction below 2P (R145, R147). -/
theorem subtractPOnce_toNat {t : WideWord} (h : t.toNat < 2 * primeP) :
    (subtractPOnce t).toNat = t.toNat % primeP := by
  have h1 := primeP_lt
  unfold subtractPOnce
  split
  · next hlt => rw [BitVec.toNat_setWidth, Nat.mod_eq_of_lt (by omega), Nat.mod_eq_of_lt hlt]
  · next hge =>
    rw [mod_of_once (by omega) h, BitVec.toNat_ofNat, Nat.mod_eq_of_lt (by omega)]

/-- `addMod(a, b) = (a + b) mod P` (R145). -/
theorem addMod_toNat {a b : Word} (ha : a.toNat < primeP) (hb : b.toNat < primeP) :
    (addMod a b).toNat = (a.toNat + b.toNat) % primeP := by
  have hs := add_spec a b
  have ht : (BitVec.ofBool (add a b).2 ++ (add a b).1).toNat = a.toNat + b.toNat := by
    rw [BitVec.toNat_append, ← Nat.shiftLeft_add_eq_or_of_lt (add a b).1.isLt, Nat.shiftLeft_eq, BitVec.toNat_ofBool]
    exact hs
  unfold addMod
  rw [subtractPOnce_toNat (by rw [ht]; omega), ht]

/-- The borrow and the one addition of a modulus `p` below 2^256 give the difference modulo p (R115, R146). -/
theorem sub_correct_once (p a b : Nat) (hp : p < 2 ^ 256) (ha : a < p) (hb : b < p) :
    (if a < b then ((2 ^ 256 - b + a) % 2 ^ 256 + p) % 2 ^ 256 else (2 ^ 256 - b + a) % 2 ^ 256) = (a + (p - b)) % p := by
  split
  · next h =>
    rw [Nat.mod_eq_of_lt (a := a + (p - b)) (by omega)]
    omega
  · next h =>
    have h2 : (2 ^ 256 - b + a) % 2 ^ 256 = a - b := by omega
    rw [h2, show a + (p - b) = (a - b) + p by omega, Nat.add_mod_right, Nat.mod_eq_of_lt (by omega)]

theorem primeP_word : (BitVec.ofNat 256 primeP).toNat = primeP := by
  rw [BitVec.toNat_ofNat, Nat.mod_eq_of_lt primeP_lt]

/-- `subMod` as a number, before the modulus is recognised (R146). -/
theorem subMod_toNat_cases (a b : Word) :
    (subMod a b).toNat = if a.toNat < b.toNat then ((2 ^ 256 - b.toNat + a.toNat) % 2 ^ 256 + primeP) % 2 ^ 256
      else (2 ^ 256 - b.toNat + a.toNat) % 2 ^ 256 := by
  have h : (subMod a b).toNat =
      if a.toNat < b.toNat then (a - b + BitVec.ofNat 256 primeP).toNat else (a - b).toNat := by
    unfold subMod subtractWithBorrow
    by_cases h : a.toNat < b.toNat <;> simp only [h, decide_true, if_true, decide_false, Bool.false_eq_true, if_false]
  rw [h, BitVec.toNat_add, BitVec.toNat_sub, primeP_word]

/-- `subMod(a, b) = (a - b) mod P` (R146). -/
theorem subMod_toNat {a b : Word} (ha : a.toNat < primeP) (hb : b.toNat < primeP) :
    (subMod a b).toNat = (a.toNat + (primeP - b.toNat)) % primeP := by
  rw [subMod_toNat_cases, sub_correct_once primeP a.toNat b.toNat primeP_lt ha hb]

/-- `doubleMod(a) = 2a mod P` (R147). -/
theorem doubleMod_toNat {a : Word} (ha : a.toNat < primeP) : (doubleMod a).toNat = 2 * a.toNat % primeP := by
  have h1 := primeP_lt
  have ht : (BitVec.setWidth 257 a <<< 1).toNat = 2 * a.toNat := by
    rw [BitVec.toNat_shiftLeft, BitVec.toNat_setWidth, Nat.shiftLeft_eq, Nat.mod_eq_of_lt (a := a.toNat) (by omega),
      Nat.mod_eq_of_lt (by omega)]
    omega
  unfold doubleMod
  rw [subtractPOnce_toNat (by rw [ht]; omega), ht]

theorem addMod_lt {a b : Word} (ha : a.toNat < primeP) (hb : b.toNat < primeP) : (addMod a b).toNat < primeP := by
  rw [addMod_toNat ha hb]; exact Nat.mod_lt _ primeP_pos

theorem subMod_lt {a b : Word} (ha : a.toNat < primeP) (hb : b.toNat < primeP) : (subMod a b).toNat < primeP := by
  rw [subMod_toNat ha hb]; exact Nat.mod_lt _ primeP_pos

theorem doubleMod_lt {a : Word} (ha : a.toNat < primeP) : (doubleMod a).toNat < primeP := by
  rw [doubleMod_toNat ha]; exact Nat.mod_lt _ primeP_pos

theorem times3_lt {a : Word} (ha : a.toNat < primeP) : (times3 a).toNat < primeP := addMod_lt (doubleMod_lt ha) ha

theorem times4_lt {a : Word} (ha : a.toNat < primeP) : (times4 a).toNat < primeP := doubleMod_lt (doubleMod_lt ha)

theorem times8_lt {a : Word} (ha : a.toNat < primeP) : (times8 a).toNat < primeP := doubleMod_lt (times4_lt ha)

/-- `powMod` is the power modulo P, for exponents that fit the bit count. -/
theorem powMod_toNat (a : Word) : ∀ bits e, e < 2 ^ bits → (powMod a bits e).toNat = a.toNat ^ e % primeP
  | 0, e, h => by
    obtain rfl : e = 0 := by omega
    simp [powMod, primeP]
  | bits + 1, e, h => by
    have ih := powMod_toNat a bits (e / 2) (by rw [pow_succ] at h; omega)
    have hsplit : a.toNat ^ e = a.toNat ^ (e / 2) * a.toNat ^ (e / 2) * a.toNat ^ (e % 2) := by
      rw [← pow_add, ← pow_add]
      congr 1
      omega
    unfold powMod sqrMod
    simp only
    rw [hsplit]
    split
    · next hodd => rw [mulMod_toNat, mulMod_toNat, ih, hodd, pow_one, ← Nat.mul_mod, Nat.mod_mul_mod]
    · next heven =>
      rw [mulMod_toNat, ih, show e % 2 = 0 by omega, pow_zero, mul_one, ← Nat.mul_mod]

/-- `invMod(a) = a^(P-2) mod P` (R150). -/
theorem invMod_toNat (a : Word) : (invMod a).toNat = a.toNat ^ (primeP - 2) % primeP :=
  powMod_toNat a 256 _ (by have := primeP_lt; omega)

theorem invMod_lt (a : Word) : (invMod a).toNat < primeP := by
  rw [invMod_toNat]; exact Nat.mod_lt _ primeP_pos

/-! ### In the ring of integers modulo P -/

theorem val_eq_iff_mod (a b : Word) : val a = val b ↔ a.toNat % primeP = b.toNat % primeP := by
  unfold val; rw [ZMod.natCast_eq_natCast_iff']

/-- Canonical values are equal exactly when they stand for the same residue (R151). -/
theorem val_inj {a b : Word} (ha : a.toNat < primeP) (hb : b.toNat < primeP) : val a = val b ↔ a = b := by
  rw [val_eq_iff_mod, Nat.mod_eq_of_lt ha, Nat.mod_eq_of_lt hb, BitVec.toNat_inj]

theorem val_of_toNat_mod {c : Word} {n : Nat} (h : c.toNat = n % primeP) : val c = (n : ZMod primeP) := by
  unfold val; rw [h, ZMod.natCast_mod]

theorem val_canon (v : Word) : val (canon v) = val v := val_of_toNat_mod (canon_toNat v)

theorem val_field (e : Engine) (n : RegNum) : val (e.field n) = val (e.reg n) := val_canon _

theorem val_zero : val 0 = 0 := by simp [val]

theorem val_one : val 1 = 1 := by simp [val]

/-- The same in the literals' simp normal form. -/
@[simp] theorem val_zero_lit : val 0#256 = 0 := val_zero

@[simp] theorem val_one_lit : val 1#256 = 1 := val_one

theorem val_eq_zero {a : Word} (ha : a.toNat < primeP) : val a = 0 ↔ a = 0 := by
  rw [← val_zero, val_inj ha (by decide +kernel)]

@[simp] theorem val_mulMod (a b : Word) : val (mulMod a b) = val a * val b := by
  rw [val_of_toNat_mod (mulMod_toNat a b)]; simp [val]

theorem val_addMod {a b : Word} (ha : a.toNat < primeP) (hb : b.toNat < primeP) :
    val (addMod a b) = val a + val b := by
  rw [val_of_toNat_mod (addMod_toNat ha hb)]; simp [val]

theorem val_subMod {a b : Word} (ha : a.toNat < primeP) (hb : b.toNat < primeP) :
    val (subMod a b) = val a - val b := by
  rw [val_of_toNat_mod (subMod_toNat ha hb)]
  push_cast [hb.le]
  simp [val, sub_eq_add_neg]

theorem val_doubleMod {a : Word} (ha : a.toNat < primeP) : val (doubleMod a) = 2 * val a := by
  rw [val_of_toNat_mod (doubleMod_toNat ha)]; simp [val]

theorem val_times3 {a : Word} (ha : a.toNat < primeP) : val (times3 a) = 3 * val a := by
  unfold times3; rw [val_addMod (doubleMod_lt ha) ha, val_doubleMod ha]; ring

theorem val_times4 {a : Word} (ha : a.toNat < primeP) : val (times4 a) = 4 * val a := by
  unfold times4; rw [val_doubleMod (doubleMod_lt ha), val_doubleMod ha]; ring

theorem val_times8 {a : Word} (ha : a.toNat < primeP) : val (times8 a) = 8 * val a := by
  unfold times8; rw [val_doubleMod (times4_lt ha), val_times4 ha]; ring

theorem val_invMod (a : Word) : val (invMod a) = val a ^ (primeP - 2) := by
  rw [val_of_toNat_mod (invMod_toNat a)]; simp [val]

end Sys2Proof.Laws
end

