-- ==== Sys2Proof/Laws/Limbs.lean ====
section
/-! SUPPORT. Reading a limb after writing one (spec/10_state.md R22; spec/20_memory.md R53). -/

namespace Sys2Proof.Laws

open Machine

theorem limb_toNat (v : Word) (j : Nat) : (limb v j).toNat = v.toNat / 2 ^ (32 * j) % 2 ^ 32 := by
  unfold limb
  rw [BitVec.extractLsb'_toNat, Nat.shiftRight_eq_div_pow]

theorem limb_getLsbD (v : Word) (j k : Nat) : (limb v j).getLsbD k = (decide (k < 32) && v.getLsbD (32 * j + k)) := by
  unfold limb
  rw [BitVec.getLsbD_extractLsb']

/-- Bit by bit, a limb write replaces bits `32*j` to `32*j+31`. -/
theorem setLimb_getLsbD (v : Word) (j : Nat) (x : Limb) (b : Nat) (hb : b < 256) :
    (setLimb v j x).getLsbD b =
      if 32 * j ≤ b ∧ b < 32 * j + 32 then x.getLsbD (b - 32 * j) else v.getLsbD b := by
  unfold setLimb
  simp only [BitVec.getLsbD_or, BitVec.getLsbD_and, BitVec.getLsbD_not, BitVec.getLsbD_shiftLeft,
    BitVec.getLsbD_setWidth, BitVec.getLsbD_allOnes, hb, decide_true, Bool.true_and]
  by_cases h1 : b < 32 * j
  · simp [h1, Nat.not_le.2 h1]
  · by_cases h2 : b < 32 * j + 32
    · have : b - 32 * j < 32 := by omega
      have h3 : b - 32 * j < 256 := by omega
      simp [h1, h2, this, h3, Nat.not_lt.1 h1]
    · have : ¬ b - 32 * j < 32 := by omega
      have hx : x.getLsbD (b - 32 * j) = false := BitVec.getLsbD_of_ge _ _ (by omega)
      simp [h1, h2, this, hx]

/-- Read after write: the written limb gives the value written, every other limb is as before. -/
theorem limb_setLimb (v : Word) (j k : Nat) (x : Limb) (hk : k < 8) :
    limb (setLimb v j x) k = if k = j then x else limb v k := by
  apply BitVec.eq_of_getLsbD_eq
  intro b hb
  rw [limb_getLsbD, setLimb_getLsbD v j x _ (by omega)]
  by_cases h : k = j
  · subst h
    have : 32 * k + b < 32 * k + 32 := by omega
    simp [hb]
  · have : ¬ (32 * j ≤ 32 * k + b ∧ 32 * k + b < 32 * j + 32) := by omega
    rw [if_neg this, if_neg h, limb_getLsbD]

end Sys2Proof.Laws
end

