-- ==== Sys2Proof/Laws/Operands.lean ====
section
/-! SUPPORT. What the operand forms read and what the destination forms leave, as numbers (spec/10_state.md R21 to R25). -/

namespace Sys2Proof.Laws

open Machine

/-! ### Register numbers of a pair and a triple -/

theorem reg_add_one_ne (r : RegNum) : r + 1 ≠ r := by revert r; decide

theorem reg_add_two_ne (r : RegNum) : r + 2 ≠ r := by revert r; decide

theorem reg_add_two_ne_add_one (r : RegNum) : r + 2 ≠ r + 1 := by revert r; decide

/-! ### Reading a completed command's destinations -/

theorem reg_complete_single (s : State) (rd : RegNum) (v : Word) (f : Flags) :
    (s.complete [(rd, v)] f).reg rd = v := by
  simp [State.reg, Engine.reg_setReg]

theorem reg_complete_pair_low (s : State) (rd : RegNum) (a b : Word) (f : Flags) :
    (s.complete (pairWrites rd a b) f).reg rd = a := by
  simp [State.reg, Engine.reg_setReg, pairWrites, (reg_add_one_ne _).symm]

theorem reg_complete_pair_high (s : State) (rd : RegNum) (a b : Word) (f : Flags) :
    (s.complete (pairWrites rd a b) f).reg (rd + 1) = b := by
  simp [State.reg, Engine.reg_setReg, pairWrites]

theorem reg_complete_triple_x (s : State) (rd : RegNum) (a b c : Word) (f : Flags) :
    (s.complete (tripleWrites rd a b c) f).reg rd = a := by
  simp [State.reg, Engine.reg_setReg, tripleWrites, (reg_add_one_ne _).symm, (reg_add_two_ne _).symm]

theorem reg_complete_triple_y (s : State) (rd : RegNum) (a b c : Word) (f : Flags) :
    (s.complete (tripleWrites rd a b c) f).reg (rd + 1) = b := by
  simp [State.reg, Engine.reg_setReg, tripleWrites, (reg_add_two_ne_add_one _).symm]

theorem reg_complete_triple_z (s : State) (rd : RegNum) (a b c : Word) (f : Flags) :
    (s.complete (tripleWrites rd a b c) f).reg (rd + 2) = c := by
  simp [State.reg, Engine.reg_setReg, tripleWrites]

/-! ### Reading operands -/

theorem field_toNat (e : Engine) (n : RegNum) : (e.field n).toNat = (e.reg n).toNat % primeP := canon_toNat _

theorem ncSingle_eq (e : Engine) (n : RegNum) : e.ncSingle n = decide (primeP ≤ (e.reg n).toNat) := by
  unfold Engine.ncSingle isCanonical
  rw [← decide_not]
  simp

theorem pairInt_toNat (e : Engine) (n : RegNum) :
    (e.pairInt n).toNat = (e.reg (n + 1)).toNat * 2 ^ 256 + (e.reg n).toNat := by
  unfold Engine.pairInt
  rw [BitVec.toNat_append, ← Nat.shiftLeft_add_eq_or_of_lt (e.reg n).isLt, Nat.shiftLeft_eq]

theorem lowHalf_toNat (t : DoubleWord) : (lowHalf t).toNat = t.toNat % 2 ^ 256 := by
  unfold lowHalf
  rw [BitVec.extractLsb'_toNat, Nat.shiftRight_zero]

theorem highHalf_toNat (t : DoubleWord) : (highHalf t).toNat = t.toNat / 2 ^ 256 := by
  unfold highHalf
  rw [BitVec.extractLsb'_toNat, Nat.shiftRight_eq_div_pow]
  exact Nat.mod_eq_of_lt (Nat.div_lt_of_lt_mul (t.isLt.trans_eq (pow_add 2 256 256)))

theorem isZero_iff_toNat (a : Word) : isZero a = true ↔ a.toNat = 0 := by
  unfold isZero
  rw [decide_eq_true_iff, ← BitVec.toNat_inj]
  rfl

theorem isInfinity_iff_val {p : Jacobian} (h : p.z.toNat < primeP) : p.isInfinity = true ↔ val p.z = 0 := by
  rw [val_eq_zero h, Jacobian.isInfinity, isZero, decide_eq_true_iff]
  rfl

end Sys2Proof.Laws
end

