-- ==== Sys2Proof/Laws/PerInstr.lean ====
section
/-! SUPPORT. Statements made per command, one lemma per constructor of Instr (spec/30_encoding.md R84, R85). -/

namespace Sys2Proof.Laws

/-- The encoding of a command matches its row of the opcode table: under the row's mask it is the row's pattern, whatever
the specifiers are, in range or not (R84, R85). -/
def EncodingMatchesRow.Statement (i : Instr) : Prop := encode i &&& maskWord i = matchWord i

/-- Masking the word of a command keeps or clears each field by itself. -/
theorem wordOf_and (op mop : BitVec 8) (rd ra rb : RegNum) (md ma mb : BitVec 4) (mz : BitVec 12) :
    wordOf op rd ra rb &&& (mop ++ md ++ ma ++ mb ++ mz) =
      (op &&& mop) ++ (BitVec.ofFin (w := 4) rd &&& md) ++ (BitVec.ofFin (w := 4) ra &&& ma) ++
        (BitVec.ofFin (w := 4) rb &&& mb) ++ (0#12 &&& mz) := by
  unfold wordOf
  erw [BitVec.and_append, BitVec.and_append, BitVec.and_append, BitVec.and_append]

theorem EncodingMatchesRow.bigintAdd256 (rd ra rb : RegNum) :
    EncodingMatchesRow.Statement (.bigintAdd256 rd ra rb) :=
  (wordOf_and 0x01 0xFF rd ra rb 0 0 0 0xFFF).trans (by simp; rfl)

theorem EncodingMatchesRow.bigintMult256 (rd ra rb : RegNum) :
    EncodingMatchesRow.Statement (.bigintMult256 rd ra rb) :=
  (wordOf_and 0x02 0xFF rd ra rb 0 0 0 0xFFF).trans (by simp; rfl)

theorem EncodingMatchesRow.p256ModReduce (rd ra : RegNum) :
    EncodingMatchesRow.Statement (.p256ModReduce rd ra) :=
  (wordOf_and 0x03 0xFF rd ra 0 0 0 0xF 0xFFF).trans (by simp; rfl)

theorem EncodingMatchesRow.p256FieldAdd (rd ra rb : RegNum) :
    EncodingMatchesRow.Statement (.p256FieldAdd rd ra rb) :=
  (wordOf_and 0x04 0xFF rd ra rb 0 0 0 0xFFF).trans (by simp; rfl)

theorem EncodingMatchesRow.p256FieldMult (rd ra rb : RegNum) :
    EncodingMatchesRow.Statement (.p256FieldMult rd ra rb) :=
  (wordOf_and 0x05 0xFF rd ra rb 0 0 0 0xFFF).trans (by simp; rfl)

theorem EncodingMatchesRow.p256FieldInvert (rd ra : RegNum) :
    EncodingMatchesRow.Statement (.p256FieldInvert rd ra) :=
  (wordOf_and 0x06 0xFF rd ra 0 0 0 0xF 0xFFF).trans (by simp; rfl)

theorem EncodingMatchesRow.p256PointDouble (rd ra : RegNum) :
    EncodingMatchesRow.Statement (.p256PointDouble rd ra) :=
  (wordOf_and 0x07 0xFF rd ra 0 0 0 0xF 0xFFF).trans (by simp; rfl)

theorem EncodingMatchesRow.p256PointAddMixed (rd ra rb : RegNum) :
    EncodingMatchesRow.Statement (.p256PointAddMixed rd ra rb) :=
  (wordOf_and 0x08 0xFF rd ra rb 0 0 0 0xFFF).trans (by simp; rfl)

theorem EncodingMatchesRow.p256ScalarMultNaf (rd ra rb : RegNum) :
    EncodingMatchesRow.Statement (.p256ScalarMultNaf rd ra rb) :=
  (wordOf_and 0x09 0xFF rd ra rb 0 0 0 0xFFF).trans (by simp; rfl)

theorem EncodingMatchesRow.p256PointValidate (ra : RegNum) :
    EncodingMatchesRow.Statement (.p256PointValidate ra) :=
  (wordOf_and 0x0A 0xFF 0 ra 0 0xF 0 0xF 0xFFF).trans (by simp; rfl)

end Sys2Proof.Laws
end

