-- ==== Sys2Proof/Laws/Point.lean ====
section
/-! SUPPORT. The point formulas as ring expressions modulo P (spec/42_point.md R184, R187, R188). -/

namespace Sys2Proof.Laws

open Machine

/-- The doubling formulas give canonical coordinates (R184). -/
theorem doubleFormulas_lt (p : Jacobian) :
    (doubleFormulas p).x.toNat < primeP ∧ (doubleFormulas p).y.toNat < primeP ∧ (doubleFormulas p).z.toNat < primeP := by
  unfold doubleFormulas times2
  dsimp only
  exact ⟨subMod_lt (mulMod_lt _ _) (doubleMod_lt (times4_lt (mulMod_lt _ _))),
    subMod_lt (mulMod_lt _ _) (times8_lt (mulMod_lt _ _)), doubleMod_lt (a := mulMod p.y p.z) (mulMod_lt _ _)⟩

/-- The doubling formulas in the ring of integers modulo P (R184). -/
theorem doubleFormulas_val {p : Jacobian} (hx : p.x.toNat < primeP) :
    let M := 3 * ((val p.x - val p.z ^ 2) * (val p.x + val p.z ^ 2))
    let S := 4 * (val p.x * val p.y ^ 2)
    val (doubleFormulas p).x = M ^ 2 - 2 * S ∧
      val (doubleFormulas p).y = M * (S - (M ^ 2 - 2 * S)) - 8 * val p.y ^ 4 ∧
      val (doubleFormulas p).z = 2 * (val p.y * val p.z) := by
  intro M S
  have hS := times4_lt (mulMod_lt p.x (mulMod p.y p.y))
  have hX := (doubleFormulas_lt p).1
  have hM : val (times3 (mulMod (subMod p.x (mulMod p.z p.z)) (addMod p.x (mulMod p.z p.z)))) = M := by
    rw [val_times3 (mulMod_lt _ _), val_mulMod, val_subMod hx (mulMod_lt _ _), val_addMod hx (mulMod_lt _ _), val_mulMod]
    ring
  have hSv : val (times4 (mulMod p.x (mulMod p.y p.y))) = S := by
    rw [val_times4 (mulMod_lt _ _), val_mulMod, val_mulMod]
    ring
  have hXv : val (doubleFormulas p).x = M ^ 2 - 2 * S := by
    simp only [doubleFormulas, times2]
    rw [val_subMod (mulMod_lt _ _) (doubleMod_lt hS), val_mulMod, hM, val_doubleMod hS, hSv]
    ring
  refine ⟨hXv, ?_, ?_⟩
  · rw [← hXv]
    simp only [doubleFormulas] at hX ⊢
    rw [val_subMod (mulMod_lt _ _) (times8_lt (mulMod_lt _ _)), val_mulMod, hM, val_subMod hS hX, hSv,
      val_times8 (mulMod_lt _ _), val_mulMod, val_mulMod]
    ring
  · simp only [doubleFormulas]
    rw [times2, val_doubleMod (mulMod_lt _ _), val_mulMod]

/-- The differences C and D of R187 in the ring of integers modulo P. -/
theorem xDifference_val {p q : Jacobian} (h : p.x.toNat < primeP) :
    val (xDifference p q) = val q.x * val p.z ^ 2 - val p.x := by
  unfold xDifference
  rw [val_subMod (mulMod_lt _ _) h, val_mulMod, val_mulMod]
  ring

theorem yDifference_val {p q : Jacobian} (h : p.y.toNat < primeP) :
    val (yDifference p q) = val q.y * val p.z ^ 3 - val p.y := by
  unfold yDifference
  rw [val_subMod (mulMod_lt _ _) h, val_mulMod, val_mulMod, val_mulMod]
  ring

theorem xDifference_lt {p q : Jacobian} (h : p.x.toNat < primeP) : (xDifference p q).toNat < primeP :=
  subMod_lt (mulMod_lt _ _) h

theorem yDifference_lt {p q : Jacobian} (h : p.y.toNat < primeP) : (yDifference p q).toNat < primeP :=
  subMod_lt (mulMod_lt _ _) h

/-- `General` gives canonical coordinates (R188). -/
theorem generalAdd_lt (p : Jacobian) (c d : Word) :
    (generalAdd p c d).x.toNat < primeP ∧ (generalAdd p c d).y.toNat < primeP ∧ (generalAdd p c d).z.toNat < primeP := by
  unfold generalAdd times2
  dsimp only
  exact ⟨subMod_lt (subMod_lt (mulMod_lt _ _) (doubleMod_lt (mulMod_lt _ _))) (mulMod_lt _ _),
    subMod_lt (mulMod_lt _ _) (mulMod_lt _ _), mulMod_lt _ _⟩

/-- `General` in the ring of integers modulo P (R188). -/
theorem generalAdd_val (p : Jacobian) (c d : Word) :
    let V := val p.x * val c ^ 2
    let X3 := val d ^ 2 - 2 * V - val c ^ 3
    val (generalAdd p c d).x = X3 ∧ val (generalAdd p c d).y = val d * (V - X3) - val p.y * val c ^ 3 ∧
      val (generalAdd p c d).z = val p.z * val c := by
  intro V X3
  have hX := (generalAdd_lt p c d).1
  have hXv : val (generalAdd p c d).x = X3 := by
    simp only [generalAdd, times2]
    rw [val_subMod (subMod_lt (mulMod_lt _ _) (doubleMod_lt (mulMod_lt _ _))) (mulMod_lt _ _),
      val_subMod (mulMod_lt _ _) (doubleMod_lt (mulMod_lt _ _)), val_doubleMod (mulMod_lt _ _)]
    simp only [val_mulMod]
    ring
  refine ⟨hXv, ?_, ?_⟩
  · rw [← hXv]
    simp only [generalAdd] at hX ⊢
    rw [val_subMod (mulMod_lt _ _) (mulMod_lt _ _), val_mulMod, val_subMod (mulMod_lt _ _) hX]
    simp only [val_mulMod]
    ring
  · simp [generalAdd]

end Sys2Proof.Laws
end

