-- ==== Sys2Proof/Laws/Prime.lean ====
section
/-! SUPPORT. P is prime (spec/41_field.md R140), by Pratt certificates: a witness of full order modulo each prime of the
factor tree of P - 1. -/

namespace Sys2Proof.Laws

open Machine

/-- `a^e` modulo n for an exponent of at most `bits` bits, by repeated squaring. -/
def powRem (n a : Nat) : Nat → Nat → Nat
  | 0, _ => 1
  | bits + 1, e =>
    let r := powRem n a bits (e / 2)
    if e % 2 = 1 then r * r % n * a % n else r * r % n

theorem powRem_cast (n a : Nat) : ∀ bits e, e < 2 ^ bits → ((powRem n a bits e : Nat) : ZMod n) = (a : ZMod n) ^ e
  | 0, e, h => by
    obtain rfl : e = 0 := by omega
    simp [powRem]
  | bits + 1, e, h => by
    have ih := powRem_cast n a bits (e / 2) (by rw [pow_succ] at h; omega)
    have hsq : (a : ZMod n) ^ e = (a : ZMod n) ^ (e / 2) * (a : ZMod n) ^ (e / 2) * (a : ZMod n) ^ (e % 2) := by
      rw [← pow_add, ← pow_add]
      congr 1
      omega
    unfold powRem
    rw [hsq]
    split
    · next hodd => simp [ih, hodd]
    · next heven => simp [ih, show e % 2 = 0 by omega]

/-- A Pratt certificate: `a` has order n - 1, whose prime factors are listed with repetition. -/
theorem prime_of_pratt (n a bits : Nat) (fs : List Nat) (hfs : ∀ q ∈ fs, q.Prime) (hprod : fs.prod = n - 1)
    (hbits : n - 1 < 2 ^ bits) (hone : powRem n a bits (n - 1) % n = 1 % n)
    (hne : ∀ q ∈ fs, powRem n a bits ((n - 1) / q) % n ≠ 1 % n) : n.Prime := by
  have key : ∀ e, e ≤ n - 1 → ((a : ZMod n) ^ e = 1 ↔ powRem n a bits e % n = 1 % n) := by
    intro e he
    rw [← powRem_cast n a bits e (by omega), ← Nat.cast_one (R := ZMod n), ZMod.natCast_eq_natCast_iff']
  refine lucas_primality n (a : ZMod n) ((key _ le_rfl).2 hone) fun q hq hdvd => ?_
  have hmem : q ∈ fs := by
    obtain ⟨r, hr, hqr⟩ := (hq.prime.dvd_prod_iff).1 (hprod ▸ hdvd)
    rwa [(Nat.prime_dvd_prime_iff_eq hq (hfs r hr)).1 hqr]
  exact fun h => hne q hmem ((key _ (Nat.div_le_self _ _)).1 h)

theorem prime_204061199 : Nat.Prime 204061199 :=
  prime_of_pratt _ 11 28 [2, 11, 23, 107, 3769]
    (by norm_num) (by norm_num) (by norm_num) (by decide +kernel) (by decide +kernel)

theorem prime_34282281433 : Nat.Prime 34282281433 :=
  prime_of_pratt _ 17 35 [2, 2, 2, 3, 7, 204061199]
    (by simpa using ⟨Nat.prime_two, Nat.prime_three, by norm_num, prime_204061199⟩)
    (by norm_num) (by norm_num) (by decide +kernel) (by decide +kernel)

theorem prime_46076956964474543 : Nat.Prime 46076956964474543 :=
  prime_of_pratt _ 5 56 [2, 23, 18169, 78283, 704251]
    (by norm_num) (by norm_num) (by norm_num) (by decide +kernel) (by decide +kernel)

theorem prime_66417393611 : Nat.Prime 66417393611 :=
  prime_of_pratt _ 6 36 [2, 5, 53, 173, 197, 3677]
    (by norm_num) (by norm_num) (by norm_num) (by decide +kernel) (by decide +kernel)

theorem prime_11290956913871 : Nat.Prime 11290956913871 :=
  prime_of_pratt _ 13 44 [2, 5, 17, 66417393611]
    (by simpa using ⟨Nat.prime_two, by norm_num, by norm_num, prime_66417393611⟩)
    (by norm_num) (by norm_num) (by decide +kernel) (by decide +kernel)

theorem prime_150_bits : Nat.Prime 774023187263532362759620327192479577272145303 :=
  prime_of_pratt _ 3 150 [2, 3, 3, 2411, 34282281433, 11290956913871, 46076956964474543]
    (by simpa using ⟨Nat.prime_two, Nat.prime_three, by norm_num, prime_34282281433, prime_11290956913871,
      prime_46076956964474543⟩)
    (by norm_num) (by norm_num) (by decide +kernel) (by decide +kernel)

theorem prime_160_bits : Nat.Prime 835945042244614951780389953367877943453916927241 :=
  prime_of_pratt _ 11 160 [2, 2, 2, 3, 3, 3, 5, 774023187263532362759620327192479577272145303]
    (by simpa using ⟨Nat.prime_two, Nat.prime_three, Nat.prime_five, prime_150_bits⟩)
    (by norm_num) (by norm_num) (by decide +kernel) (by decide +kernel)

/-- "P is prime" (R140). -/
theorem prime_P : Nat.Prime primeP :=
  prime_of_pratt _ 6 256
    [2, 3, 5, 5, 17, 257, 641, 1531, 65537, 490463, 6700417, 835945042244614951780389953367877943453916927241]
    (by simpa using ⟨Nat.prime_two, Nat.prime_three, Nat.prime_five, by norm_num, by norm_num, by norm_num, by norm_num,
      by norm_num, by norm_num, by norm_num, prime_160_bits⟩)
    (by norm_num [primeP]) (by norm_num [primeP]) (by decide +kernel) (by decide +kernel)

end Sys2Proof.Laws
end

