-- ==== Sys2Proof/Laws/Step.lean ====
section
/-! SUPPORT. What a step does for each kind of access, said once (spec/20_memory.md R52, R53, R57). -/

namespace Sys2Proof.Laws

open Machine

/-- The state in which an answered access is performed: its event is gone and its answer logged. -/
def answered (s : State) (rest : List HostEvent) (r : Response) : State :=
  { s with host := rest, log := s.log ++ [r] }

@[simp] theorem answered_engine (s : State) (rest : List HostEvent) (r : Response) :
    (answered s rest r).engine = s.engine := rfl

theorem answeredWith_answered (s : State) (rest : List HostEvent) (r : Response) :
    AnsweredWith s (answered s rest r) r rest := ⟨rfl, rfl, rfl⟩

/-- A step whose next event is a window access performs it. -/
theorem step_window {s : State} {off : Nat} {a : Access} {rest : List HostEvent}
    (h : s.host = .window off a :: rest) : step s = windowAccess off a { s with host := rest } := by
  unfold step; rw [h]; rfl

/-- A step whose next event is a bus access performs it. -/
theorem step_bus {s : State} {addr : Nat} {a : Access} {rest : List HostEvent}
    (h : s.host = .bus addr a :: rest) : step s = busAccess addr a { s with host := rest } := by
  unfold step; rw [h]; rfl

/-- A legal read answers the word of the map and changes nothing else (R52). -/
theorem step_read {s : State} {off : Nat} {rest : List HostEvent} (h : NextAccess s off (.read .w32) rest)
    (h4 : off % 4 = 0) (hl : off < 0x400) :
    step s = .next (answered s rest (.value (s.engine.readReg (windowReg off)))) := by
  rw [step_window h.1]
  unfold windowAccess
  rw [if_neg (by unfold Config.windowSize; omega), if_neg (by simp [h.2]), if_neg (by omega)]
  rfl

/-- A legal write is `writeReg` on the answered state (R53). -/
theorem step_write {s : State} {off : Nat} {v : BitVec 32} {rest : List HostEvent}
    (h : NextAccess s off (.write (.b32 v)) rest) (h4 : off % 4 = 0) (hl : off < 0x400) :
    step s = writeReg (windowReg off) v (answered s rest .written) := by
  rw [step_window h.1]
  unfold windowAccess
  rw [if_neg (by unfold Config.windowSize; omega), if_neg (by simp [h.2]), if_neg (by omega)]
  rfl

theorem faulted_eq_true (e : Engine) : e.faulted = true ↔ e.err ≠ 0 := by simp [Engine.faulted]

theorem faulted_eq_false (e : Engine) : e.faulted = false ↔ e.err = 0 := by simp [Engine.faulted]

/-- An accepted CMD write executes the word on the state whose LASTCMD it is (R34). -/
theorem step_cmdWrite {s : State} {w : CmdWord} {rest : List HostEvent}
    (h : NextAccess s 0x200 (.write (.b32 w)) rest) (he : s.engine.err = 0) :
    step s = execute w ((answered s rest .written).setLastCmd w) := by
  rw [step_write h (by rfl) (by decide)]
  simp [windowReg, writeReg, writeCmd, (faulted_eq_false _).2 he]

/-- A CMD write in the faulted state changes nothing but the answer (R34, R234). -/
theorem step_cmdWrite_faulted {s : State} {w : CmdWord} {rest : List HostEvent}
    (h : NextAccess s 0x200 (.write (.b32 w)) rest) (he : s.engine.err ≠ 0) :
    step s = .next (answered s rest .written) := by
  rw [step_write h (by rfl) (by decide)]
  simp [windowReg, writeReg, writeCmd, (faulted_eq_true _).2 he]

/-- Executing a word: the command it decodes to, or ILLEGAL_CMD. -/
theorem execute_cases (w : CmdWord) (s : State) :
    (∃ i, decode w = .ok i ∧ execute w s = .next (outcomeOf i s)) ∨
    ((∀ i, decode w ≠ .ok i) ∧ execute w s = .next (s.raise .illegalCmd)) := by
  unfold execute
  cases hd : decode w with
  | ok i => exact .inl ⟨i, rfl, exec_eq i s⟩
  | error e => exact .inr ⟨nofun, rfl⟩

/-- Executing a word always has a next state, and touches neither what is around the engine nor LASTCMD. -/
theorem execute_next (w : CmdWord) (s : State) :
    ∃ t, execute w s = .next t ∧ SameAround s t ∧ t.engine.lastCmd = s.engine.lastCmd := by
  obtain ⟨i, -, h⟩ | ⟨-, h⟩ := execute_cases w s
  · exact ⟨_, h, outcomeOf_around i s, outcomeOf_lastCmd i s⟩
  · exact ⟨_, h, ⟨rfl, rfl, rfl⟩, rfl⟩

/-- The map of R54, row by row. -/
theorem windowReg_limb (i : RegNum) (j : Fin 8) : windowReg (0x20 * i.val + 4 * j.val) = .limb i j := by
  have hi := i.isLt
  have hj := j.isLt
  unfold windowReg
  rw [if_pos (by omega)]
  congr 1
  · apply Fin.ext; simp only [Fin.ofNat]; omega
  · apply Fin.ext; simp only [Fin.ofNat]; omega

theorem windowReg_reserved {off : Nat} (h : 0x210 ≤ off) : windowReg off = .reserved := by
  unfold windowReg
  rw [if_neg (by omega), if_neg (by omega), if_neg (by omega), if_neg (by omega), if_neg (by omega)]

end Sys2Proof.Laws
end

