-- ==== Sys2Proof/Tests/Slice0.lean ====
section
/-! SUPPORT. Tests of the model on words and values the spec writes out (spec/95_test_vectors.md, by vector number), and
for every statement with hypotheses a witness: a state and operands that meet all of them together. -/

-- One test after the other: each waits for the kernel, and side by side their threads' stacks add up past check.sh's limit.
set_option Elab.async false

namespace Sys2Proof.Tests

open Machine

/-! ### Ill-formed terms are refused (R90 checks 4 and 5) -/

theorem test_wf_mult_pair : (Instr.bigintMult256 15 1 2).wf = false ∧ (Instr.bigintMult256 14 1 2).wf = true := by decide
theorem test_wf_reduce_pair : (Instr.p256ModReduce 0 15).wf = false ∧ (Instr.p256ModReduce 15 14).wf = true := by decide
theorem test_wf_double_dest : (Instr.p256PointDouble 14 0).wf = false ∧ (Instr.p256PointDouble 15 0).wf = false := by decide
theorem test_wf_double_source : (Instr.p256PointDouble 0 14).wf = false ∧ (Instr.p256PointDouble 13 13).wf = true := by
  decide
theorem test_wf_add_mixed_each_triple : (Instr.p256PointAddMixed 14 0 0).wf = false ∧
    (Instr.p256PointAddMixed 0 14 0).wf = false ∧ (Instr.p256PointAddMixed 0 0 14).wf = false ∧
    (Instr.p256PointAddMixed 13 13 13).wf = true := by decide
theorem test_wf_scalar_mult_pairs : (Instr.p256ScalarMultNaf 15 0 0).wf = false ∧
    (Instr.p256ScalarMultNaf 0 0 15).wf = false ∧ (Instr.p256ScalarMultNaf 14 15 14).wf = true := by decide
theorem test_wf_validate_pair : (Instr.p256PointValidate 15).wf = false ∧ (Instr.p256PointValidate 14).wf = true := by decide
theorem test_wf_single_forms : (Instr.bigintAdd256 15 15 15).wf = true ∧ (Instr.p256FieldAdd 15 15 15).wf = true ∧
    (Instr.p256FieldMult 15 15 15).wf = true ∧ (Instr.p256FieldInvert 15 15).wf = true := by decide

/-! ### Words written from the encoding of R81 and R83 (V30) -/

theorem test_decode_add : decode 0x01012000 = .ok (.bigintAdd256 0 1 2) ∧
    decode 0x01FFF000 = .ok (.bigintAdd256 15 15 15) := by decide
theorem test_decode_mult : decode 0x02412000 = .ok (.bigintMult256 4 1 2) ∧
    decode 0x02E12000 = .ok (.bigintMult256 14 1 2) := by decide
theorem test_decode_reduce : decode 0x03040000 = .ok (.p256ModReduce 0 4) := by decide
theorem test_decode_fieldadd : decode 0x04012000 = .ok (.p256FieldAdd 0 1 2) := by decide
theorem test_decode_fieldmult : decode 0b00000101001100010010000000000000 = .ok (.p256FieldMult 3 1 2) := by decide
theorem test_decode_fieldinvert : decode 0x06010000 = .ok (.p256FieldInvert 0 1) := by decide
theorem test_decode_double : decode 0x07400000 = .ok (.p256PointDouble 4 0) ∧
    decode 0x07DD0000 = .ok (.p256PointDouble 13 13) := by decide
theorem test_decode_add_mixed : decode 0x08804000 = .ok (.p256PointAddMixed 8 0 4) := by decide
theorem test_decode_scalar_mult : decode 0x09412000 = .ok (.p256ScalarMultNaf 4 1 2) ∧
    decode 0x09E1E000 = .ok (.p256ScalarMultNaf 14 1 14) ∧ decode 0x09000000 = .ok (.p256ScalarMultNaf 0 0 0) := by decide
theorem test_decode_validate : decode 0x0A020000 = .ok (.p256PointValidate 2) ∧
    decode 0x0A0E0000 = .ok (.p256PointValidate 14) := by decide

theorem test_illegal_pair_base : ([0x02F12000, 0x030F0000, 0x09F12000, 0x0941F000, 0x0A0F0000] : List CmdWord).map decode =
    List.replicate 5 (.error .pairBaseOutOfRange) := by decide
theorem test_illegal_triple_base : ([0x07E00000, 0x070E0000, 0x0880E000] : List CmdWord).map decode =
    List.replicate 3 (.error .tripleBaseOutOfRange) := by decide
theorem test_illegal_unused_specifier : ([0x03041000, 0x06012000, 0x0A120000, 0x0A021000] : List CmdWord).map decode =
    List.replicate 4 (.error .unusedSpecifierSet) := by decide
theorem test_illegal_zero_field : ([0x05312001, 0x05312800] : List CmdWord).map decode =
    List.replicate 2 (.error .zeroFieldSet) := by decide
theorem test_illegal_opcode : ([0x00000000, 0x0B000000, 0xFFFFFFFF] : List CmdWord).map decode =
    List.replicate 3 (.error .reservedOpcode) := by decide

theorem test_encode : encode (.p256FieldMult 3 1 2) = 0x05312000 ∧ encode (.p256PointValidate 2) = 0x0A020000 ∧
    encode (.p256PointDouble 4 0) = 0x07400000 := by decide
theorem test_table_word : decodeTableWord 32 0x05000000 = some (.p256FieldMult 0 0 0) ∧ decodeTableWord 32 0 = none := by
  decide
/-- The spelling of V30-9. -/
theorem test_asm : (Instr.p256FieldMult 3 1 2).asm = "p256_fieldmult w3, w1, w2" := by decide +kernel

/-! ### Constants of spec/95_test_vectors.md -/

def maxWord : Word := BitVec.allOnes 256
def wP : Word := 0xFFFFFFFF00000001000000000000000000000000FFFFFFFFFFFFFFFFFFFFFFFF
def gx : Word := 0x6B17D1F2E12C4247F8BCE6E563A440F277037D812DEB33A0F4A13945D898C296
def gy : Word := 0x4FE342E2FE1A7F9B8EE7EB4A7C0F9E162BCE33576B315ECECBB6406837BF51F5
def negGy : Word := 0xB01CBD1C01E58065711814B583F061E9D431CCA994CEA1313449BF97C840AE0A
def gx2 : Word := 0x7CF27B188D034F7E8A52380304B51AC3C08969E277F21B35A60B48FC47669978
def gy2 : Word := 0x07775510DB8ED040293D9AC69F7430DBBA7DADE63CE982299E04B79D227873D1
def gxgy : Word := 0x823CD15F6DD3C71933565064513A6B2BD183E554C6A08622F713EBBBFACE98BE
def d2x : Word := 0x9A978F59ACD1B5AD570E7D52DCFCDE43804B42274F61DDCF1E7D848391D6C70F
def d2y : Word := 0x4126885E7F786AF905338238E5346D5FE77FC46388668BD0FD59BE3190D2F5D1
def d2z : Word := 0x9FC685C5FC34FF371DCFD694F81F3C2C579C66AED662BD9D976C80D06F7EA3EA

/-- The state after reset with some registers written. -/
def holding (ws : List (RegNum × Word)) : State := { State.reset with engine := Engine.reset.writeAll ws }

/-- The state one step leaves, the host's next access being a CMD write of the word. -/
def after (s : State) (w : Nat) : State :=
  match step (s.withFetchWord 32 w) with
  | .next t => t
  | .fault _ => State.reset
  | .refused _ => State.reset

/-- Some registers and STATUS after running a word. -/
def shows (s : State) (w : Nat) (ns : List RegNum) : List Word × BitVec 32 :=
  (ns.map (after s w).reg, (after s w).engine.statusWord)

/-! ### One command each -/

theorem test_add_carry : shows (holding [(1, maxWord), (2, 1)]) 0x01012000 [0, 1, 2] = ([0, maxWord, 1], 1) := by
  decide +kernel -- V40-3
theorem test_add_overlap : shows (holding [(1, 2 ^ 255)]) 0x01111000 [1] = ([0], 1) := by decide +kernel -- V40-7
theorem test_mult_max : shows (holding [(1, maxWord), (2, maxWord)]) 0x02412000 [4, 5] = ([1, maxWord - 1], 0) := by
  decide +kernel -- V40-11
theorem test_mult_overlap : shows (holding [(1, 2 ^ 128), (2, 2 ^ 128 + 1)]) 0x02112000 [1, 2] = ([2 ^ 128, 1], 0) := by
  decide +kernel -- V40-15
theorem test_reduce_max : shows (holding [(4, maxWord), (5, maxWord)]) 0x03040000 [0] =
    ([0x00000004FFFFFFFDFFFFFFFFFFFFFFFEFFFFFFFBFFFFFFFF0000000000000002], 0) := by decide +kernel -- V41-6
theorem test_fieldadd_canonicalises : shows (holding [(1, maxWord), (2, maxWord)]) 0x04012000 [0] =
    ([0x00000001FFFFFFFDFFFFFFFFFFFFFFFFFFFFFFFE000000000000000000000000], 8) := by decide +kernel -- V41-15
theorem test_fieldmult : shows (holding [(1, gx), (2, gy)]) 0x05312000 [3] = ([gxgy], 0) := by decide +kernel -- V41-21
theorem test_fieldmult_not_canonical : shows (holding [(1, wP + 1), (2, gx)]) 0x05312000 [3] = ([gx], 8) := by
  decide +kernel -- V41-22
theorem test_fieldinvert : shows (holding [(1, gx)]) 0x06010000 [0] =
    ([0xE060CBB088706D5D24936933B69B16AB707D656273744B65664C49E577F35238], 0) := by decide +kernel -- V41-27
theorem test_fieldinvert_zero : shows (holding [(0, 7), (1, wP)]) 0x06010000 [0] = ([7], 0x200) := by
  decide +kernel -- V41-31
theorem test_double : shows (holding [(0, gx), (1, gy), (2, 1)]) 0x07400000 [4, 5, 6] = ([d2x, d2y, d2z], 0) := by
  decide +kernel -- V42-1
theorem test_double_infinity : shows (holding [(0, gx), (1, gy), (2, wP)]) 0x07400000 [4, 5, 6] = ([0, 0, 0], 0xC) := by
  decide +kernel -- V42-6
theorem test_add_mixed_opposite : shows (holding [(0, gx), (1, gy), (2, 1), (4, gx), (5, negGy), (6, 1)]) 0x08804000
    [8, 9, 10] = ([0, 0, 0], 4) := by decide +kernel -- V42-15
theorem test_add_mixed_general : shows (holding [(0, gx), (1, gy), (2, 1), (4, gx2), (5, gy2), (6, 1)]) 0x08804000 [8, 10] =
    ([0xB07647DEEF13EEB2C1639A8651FF2D3F7A08C5255B183A80B349E30974677826,
      0x11DAA925ABD70D369195511DA110D9D14985EC614A06E794B16A0FB66ECDD6E2], 0) := by decide +kernel -- V42-17
theorem test_scalar_mult_two : shows (holding [(1, 2), (2, gx), (3, gy)]) 0x09112000 [1, 2, 3] = ([gx2, gy2, gy], 0) := by
  decide +kernel -- V43-27
theorem test_scalar_mult_order : shows
    (holding [(1, 0xFFFFFFFF00000000FFFFFFFFFFFFFFFFBCE6FAADA7179E84F3B9CAC2FC632551), (2, gx), (3, gy)]) 0x09412000 [4, 5] =
    ([0, 0], 4) := by decide +kernel -- V43-16
theorem test_validate_on_curve : shows (holding [(2, gx), (3, gy)]) 0x0A020000 [2, 3] = ([gx, gy], 2) := by
  decide +kernel -- V44-1
theorem test_validate_off_curve : shows (holding [(2, gx), (3, gy + 1)]) 0x0A020000 [2, 3] = ([gx, gy + 1], 0) := by
  decide +kernel -- V44-2

/-! ### Accesses and faults -/

/-- One step of a machine whose next event is the given one. -/
def performs (s : State) (e : HostEvent) : Engine × List Response :=
  match step { s with host := [e] } with
  | .next t => (t.engine, t.log)
  | .fault _ => (Engine.reset, [])
  | .refused _ => (Engine.reset, [])

theorem test_read_id : performs State.reset (.window 0x20C (.read .w32)) = (Engine.reset, [.value 0x50323536]) := by
  decide -- V20-1
theorem test_write_limb : performs State.reset (.window 0x024 (.write (.b32 0xDEADBEEF))) =
    (Engine.reset.setReg 1 (0xDEADBEEF * 2 ^ 32), [.written]) := by decide +kernel -- V20-4
theorem test_soft_reset : performs (holding [(1, 5)]) (.window 0x208 (.write (.b32 1))) = (Engine.reset, [.written]) := by
  decide +kernel -- V20-11
theorem test_narrow_write : performs (holding [(1, 5)]) (.window 0 (.write (.b16 3))) =
    ((holding [(1, 5)]).engine, [.busError]) := by decide +kernel -- V20-12

/-- The state of V60-1 to V60-3 before the fault: C is set and W[2] = MAX - 1. -/
def beforeFault : State := after (holding [(1, maxWord)]) 0x01211000

theorem test_inverse_of_zero_keeps_carry : shows beforeFault 0x06030000 [0, 2] = ([0, maxWord - 1], 0x201) := by
  decide +kernel -- V60-1
theorem test_illegal_beats_inverse_of_zero : shows beforeFault 0x06031000 [0, 2] = ([0, maxWord - 1], 0x101) := by
  decide +kernel -- V60-3
theorem test_faulted_ignores_cmd : performs (after beforeFault 0x06030000) (cmdWriteEvent 0xFFFFFFFF) =
    ((after beforeFault 0x06030000).engine, [.written, .written, .written]) := by decide +kernel -- V60-5

/-! ### NAF strings and the fast reduction -/

theorem test_naf_eleven : nafEncode 11 = [.minusOne, .zero, .minusOne, .zero, .plusOne] := by decide +kernel -- V43-6
theorem test_naf_least_257 : (nafEncode 0xAAAAAAAAAAAAAAAAAAAAAAAAAAAAAAAAAAAAAAAAAAAAAAAAAAAAAAAAAAAAAAAB).length = 257 := by
  decide +kernel -- V43-9c
/-- The extreme value of R154 folds to the value of V41-6. -/
theorem test_fast_reduce_max : fastReduce (BitVec.allOnes 512) =
    0x00000004FFFFFFFDFFFFFFFFFFFFFFFEFFFFFFFBFFFFFFFF0000000000000002 := by decide +kernel

/-! ### Witnesses: the hypotheses of every statement are met -/

/-- A machine just after reset whose next event is the given access. -/
def next (off : Nat) (a : Access) : State := { State.reset with host := [.window off a] }

/-- The same, faulted by an illegal command. -/
def nextFaulted (off : Nat) (a : Access) : State :=
  { State.reset with engine := { Engine.reset with err := 1 }, host := [.window off a] }

theorem witness_DecodeOfEncode : (Instr.p256PointAddMixed 13 13 13).wf = true := by decide
theorem witness_EncodeOfDecode : decode 0x08DDD000 = .ok (.p256PointAddMixed 13 13 13) := by decide

theorem witness_StepRunsDecodedCommand :
    NextAccess (next 0x200 (.write (.b32 0x01012000))) 0x200 (.write (.b32 0x01012000)) [] ∧
    (next 0x200 (.write (.b32 0x01012000))).engine.err = 0 ∧ decode 0x01012000 = .ok (.bigintAdd256 0 1 2) :=
  ⟨⟨rfl, rfl⟩, rfl, by decide⟩

/-- An accepted CMD write, a CMD read, and a CMD write in the faulted state. -/
theorem witness_CmdOffsetAcceptsOrIgnores :
    (NextAccess (next 0x200 (.write (.b32 0))) 0x200 (.write (.b32 0)) [] ∧
      (next 0x200 (.write (.b32 0))).engine.err = 0) ∧
    NextAccess (next 0x200 (.read .w32)) 0x200 (.read .w32) [] ∧
    (NextAccess (nextFaulted 0x200 (.write (.b32 0))) 0x200 (.write (.b32 0)) [] ∧
      (nextFaulted 0x200 (.write (.b32 0))).engine.err ≠ 0) :=
  ⟨⟨⟨rfl, rfl⟩, rfl⟩, ⟨rfl, rfl⟩, ⟨rfl, rfl⟩, by decide⟩

theorem witness_IllegalWordRaisesIllegalCmd :
    NextAccess (next 0x200 (.write (.b32 0x0B000000))) 0x200 (.write (.b32 0x0B000000)) [] ∧
    (next 0x200 (.write (.b32 0x0B000000))).engine.err = 0 ∧ ¬ LegalWord 0x0B000000 :=
  ⟨⟨rfl, rfl⟩, rfl, by unfold LegalWord; decide⟩

theorem witness_IllegalWordBeatsInverseOfZero :
    NextAccess (next 0x200 (.write (.b32 0x06031000))) 0x200 (.write (.b32 0x06031000)) [] ∧
    (next 0x200 (.write (.b32 0x06031000))).engine.err = 0 ∧ (0x06031000 : CmdWord).toNat / 2 ^ 24 = 6 ∧
    ¬ LegalWord 0x06031000 :=
  ⟨⟨rfl, rfl⟩, rfl, by decide, by unfold LegalWord; decide⟩

/-- A faulted machine that leaves the fault by a soft reset, and one that leaves it by the hardware reset. -/
theorem witness_FaultedStateLeftOnlyByReset :
    ((nextFaulted 0x208 (.write (.b32 1))).engine.err ≠ 0 ∧
      ∃ t, step (nextFaulted 0x208 (.write (.b32 1))) = .next t ∧ t.engine.err = 0) ∧
    (∃ t, step { nextFaulted 0 (.read .w32) with inReset := true, host := [.resetLine false] } = .next t ∧
      t.engine.err = 0) :=
  ⟨⟨by decide, _, rfl, rfl⟩, _, rfl, rfl⟩

/-- The first and last limb, the four control offsets, and both ends of the reserved words. -/
theorem witness_WindowReadsReturnTheMap : ∀ off ∈ [0, 0x1FC, 0x200, 0x204, 0x208, 0x20C, 0x210, 0x3FC],
    NextAccess (next off (.read .w32)) off (.read .w32) [] ∧ off % 4 = 0 ∧ off < 0x400 ∧
      (off < 0x200 → ∃ (i : Fin 16) (j : Fin 8), off = 0x20 * i.val + 4 * j.val) := by
  intro off h
  refine ⟨⟨rfl, rfl⟩, ?_⟩
  revert off
  decide

/-- The same offsets written, with bit 0 of the datum 1 and 0, faulted and not. -/
theorem witness_WindowWritesFollowTheMap : ∀ off ∈ [0, 0x1FC, 0x200, 0x204, 0x208, 0x20C, 0x210, 0x3FC],
    ∀ v ∈ [(1 : BitVec 32), 2],
    NextAccess (next off (.write (.b32 v))) off (.write (.b32 v)) [] ∧ (next off (.write (.b32 v))).engine.err = 0 ∧
    NextAccess (nextFaulted off (.write (.b32 v))) off (.write (.b32 v)) [] ∧
    (nextFaulted off (.write (.b32 v))).engine.err ≠ 0 ∧ off % 4 = 0 ∧ off < 0x400 := by
  intro off h v _
  refine ⟨⟨rfl, rfl⟩, rfl, ⟨rfl, rfl⟩, show (1 : BitVec 4) ≠ 0 by decide, ?_⟩
  revert off
  decide

/-- A misaligned read, and a 16-bit write and a 64-bit read at an aligned offset. -/
theorem witness_UnsupportedAccessChangesNothing :
    (NextAccess (next 2 (.read .w32)) 2 (.read .w32) [] ∧ (2 : Nat) % 4 ≠ 0) ∧
    (NextAccess (next 0 (.write (.b16 0))) 0 (.write (.b16 0)) [] ∧ ∀ v, Access.write (.b16 0) ≠ .write (.b32 v)) ∧
    (NextAccess (next 0x3FC (.read .w64)) 0x3FC (.read .w64) [] ∧ Access.read .w64 ≠ .read .w32) :=
  ⟨⟨⟨rfl, rfl⟩, by decide⟩, ⟨⟨rfl, rfl⟩, fun _ h => by cases h⟩, ⟨rfl, rfl⟩, by decide⟩

/-- The last byte of the window, and the first address above it. -/
theorem witness_BusAccessReachesTheWindow :
    (∃ s : State, s.host = .bus (Config.base + 0x3FF) (.read .w32) :: [] ∧ (0x3FF : Nat) < 0x400) ∧
    (∃ s : State, s.host = .bus (Config.base + 0x400) (.read .w32) :: []) :=
  ⟨⟨{ State.reset with host := _ }, rfl, by decide⟩, { State.reset with host := _ }, rfl⟩

theorem witness_IdleEngineStays : State.reset.host = [] := rfl

theorem witness_CtrlWriteResets :
    (NextAccess (next 0x208 (.write (.b32 1))) 0x208 (.write (.b32 1)) [] ∧ (1 : BitVec 32).toNat % 2 = 1) ∧
    (NextAccess (next 0x208 (.write (.b32 0xFFFFFFFE))) 0x208 (.write (.b32 0xFFFFFFFE)) [] ∧
      (0xFFFFFFFE : BitVec 32).toNat % 2 = 0) ∧
    NextAccess (next 0x208 (.read .w32)) 0x208 (.read .w32) [] :=
  ⟨⟨⟨rfl, rfl⟩, by decide⟩, ⟨⟨rfl, rfl⟩, by decide⟩, ⟨rfl, rfl⟩⟩

theorem witness_HardwareResetInput :
    (∃ s : State, s.host = .resetLine true :: []) ∧
    (∃ s : State, s.inReset = true ∧ (0x3FF : Nat) < 0x400 ∧ s.host = .window 0x3FF (.read .w32) :: []) ∧
    (∃ s : State, s.inReset = true ∧ s.host = .resetLine false :: []) :=
  ⟨⟨{ State.reset with host := _ }, rfl⟩, ⟨{ State.reset with inReset := true, host := _ }, rfl, by decide, rfl⟩,
    { State.reset with inReset := true, host := _ }, rfl, rfl⟩

/-- The greatest bases the pair and triple forms admit, and the least ones they do not (BigintMultProductPair, ModReducePairModuloP, PointDoubleFormulas,
PointAddMixedFiveCases, ValidateDecidesCurveEquation, MultiplyThenReduceIsFieldMultiply). -/
theorem witness_greatest_bases : (14 : RegNum).val ≤ 14 ∧ (15 : RegNum).val = 15 ∧ (13 : RegNum).val ≤ 13 ∧
    13 < (14 : RegNum).val := by decide

/-- An operand that is not 0 modulo P, and two that are. -/
theorem witness_FieldInvertInverseOrFault : ((holding [(1, maxWord)]).reg 1).toNat % primeP ≠ 0 ∧
    ((holding [(1, wP)]).reg 1).toNat % primeP = 0 ∧ (State.reset.reg 1).toNat % primeP = 0 := by decide +kernel

/-- The scalar 0 gives Infinity and the scalar 1 the base point. -/
theorem witness_ScalarMultWritesAffineResult :
    scalarMult ((holding [(2, gx), (3, gy)]).reg 1) ⟨gx, gy⟩ = none ∧
    scalarMult ((holding [(1, 1), (2, gx), (3, gy)]).reg 1) ⟨gx, gy⟩ = some ⟨gx, gy⟩ ∧
    gx.toNat = ((holding [(2, gx), (3, gy)]).reg 2).toNat % primeP ∧
    gy.toNat = ((holding [(2, gx), (3, gy)]).reg 3).toNat % primeP := by decide +kernel

theorem witness_OutOfRangeSpecifierFaults : (Instr.bigintMult256 15 0 0).wf = false := by decide

/-- Both ways a legal command ends. -/
theorem witness_CommandsWriteAllOrNothing : (Instr.p256FieldInvert 0 1).wf = true ∧
    ((after (holding [(1, 1)]) 0x06010000).engine.err = 0 ∧ (after State.reset 0x06010000).engine.err = 2) := by
  decide +kernel

/-- An addition onto its own source and the same addition elsewhere. -/
theorem witness_DestinationOverlapIsHarmless : (holding [(1, 5)]).engine.err = 0 ∧ (Instr.p256FieldAdd 1 1 2).wf = true ∧
    ((Instr.p256FieldAdd 1 1 2).withDest 3).wf = true ∧ (∃ t, exec (.p256FieldAdd 1 1 2) (holding [(1, 5)]) = .next t) ∧
    ∃ t, exec ((Instr.p256FieldAdd 1 1 2).withDest 3) (holding [(1, 5)]) = .next t :=
  ⟨rfl, rfl, rfl, ⟨_, rfl⟩, _, rfl⟩

/-- Two machines that differ in a register the command does not read. -/
theorem witness_ResultsDependOnSourcesOnly : (holding [(1, 5)]).engine.err = 0 ∧ (holding [(1, 5), (9, 7)]).engine.err = 0 ∧
    (∀ n ∈ (Instr.p256FieldAdd 0 1 2).sources, (holding [(1, 5)]).reg n = (holding [(1, 5), (9, 7)]).reg n) ∧
    (∃ t, exec (.p256FieldAdd 0 1 2) (holding [(1, 5)]) = .next t) ∧
    ∃ t, exec (.p256FieldAdd 0 1 2) (holding [(1, 5), (9, 7)]) = .next t :=
  ⟨rfl, rfl, by decide +kernel, ⟨_, rfl⟩, _, rfl⟩

/-- Two machines whose source registers agree modulo P only. -/
theorem witness_FieldOperandsMatterModuloP : 
    (∀ n ∈ (Instr.p256FieldMult 0 1 2).plainSources, (holding [(1, 1)]).reg n = (holding [(1, wP + 1), (2, wP)]).reg n) ∧
    (holding [(1, 1)]).engine.err = 0 ∧ (holding [(1, wP + 1), (2, wP)]).engine.err = 0 ∧
    (∀ n ∈ (Instr.p256FieldMult 0 1 2).fieldSources,
      ((holding [(1, 1)]).reg n).toNat % primeP = ((holding [(1, wP + 1), (2, wP)]).reg n).toNat % primeP) ∧
    (∃ t, exec (.p256FieldMult 0 1 2) (holding [(1, 1)]) = .next t) ∧
    ∃ t, exec (.p256FieldMult 0 1 2) (holding [(1, wP + 1), (2, wP)]) = .next t :=
  ⟨(fun n h => by cases h), rfl, rfl, by decide +kernel, ⟨_, rfl⟩, _, rfl⟩

theorem witness_FieldResultsAreCanonical : (Instr.p256FieldAdd 0 1 2).writesField = true ∧
    (holding [(1, maxWord)]).engine.err = 0 ∧
    ∃ t, exec (.p256FieldAdd 0 1 2) (holding [(1, maxWord)]) = .next t ∧ t.engine.err = 0 :=
  ⟨rfl, rfl, _, rfl, rfl⟩

theorem witness_BitLengthBoundsTheValue : (BitVec.allOnes 257) ≠ 0#257 := by decide

/-- The three relations of `compare` (V40-21). -/
theorem witness_CompareAndIsZero : wP.toNat < maxWord.toNat ∧ gx = gx ∧ gy.toNat < gx.toNat := by decide +kernel

theorem witness_FieldFunctionsAreModular : (wP - 1).toNat < primeP ∧ (0 : Word).toNat < primeP := by decide +kernel

/-- The three kinds of engine state a reset leaves. -/
theorem witness_ResetStateIsZero : (∃ s : State, Engine.reset = s.resetEngine.engine) ∧
    ∃ s : State, s.inReset = true ∧ Engine.reset = (s.driveReset false).engine :=
  ⟨⟨State.reset, rfl⟩, { State.reset with inReset := true }, rfl, rfl⟩

/-- Three canonical values, the first of them not 0, and two whose product is 0. -/
theorem witness_FieldLaws : (wP - 1).toNat < primeP ∧ gx.toNat < primeP ∧ gy.toNat < primeP ∧ wP - 1 ≠ 0 ∧
    (0 : Word).toNat < primeP ∧ mulMod (wP - 1) 0 = 0 := by decide +kernel

theorem witness_InvModIsTheUniqueInverse : 0 < (1 : Word).toNat ∧ (wP - 1).toNat < primeP ∧ 0 < (wP - 1).toNat := by
  decide +kernel

/-- The least scalar with 257 digits is not 0. -/
theorem witness_NafEncodeIsNonAdjacentForm :
    (0xAAAAAAAAAAAAAAAAAAAAAAAAAAAAAAAAAAAAAAAAAAAAAAAAAAAAAAAAAAAAAAAB : Word) ≠ 0 ∧
    (2 ^ 257 + 1) / 3 ≤ (0xAAAAAAAAAAAAAAAAAAAAAAAAAAAAAAAAAAAAAAAAAAAAAAAAAAAAAAAAAAAAAAAB : Word).toNat := by
  decide +kernel

theorem witness_InfinityAndSelfAdditionLaws : (⟨7, 9, 0⟩ : Jacobian).z = 0 ∧ (⟨gx, gy, 1⟩ : Jacobian).z ≠ 0 ∧
    gx.toNat < primeP ∧ gy.toNat < primeP := by decide +kernel

/-- The base point G is on the curve. -/
theorem g_equation : val gy ^ 2 = val gx ^ 3 - 3 * val gx + val coeffB := by decide +kernel

/-- The base point G as a point of the curve: its equation holds and its y is not 0. -/
theorem g_nonsingular : p256.Nonsingular (val gx) (val gy) := by
  rw [WeierstrassCurve.Affine.nonsingular_iff, WeierstrassCurve.Affine.equation_iff]
  refine ⟨?_, .inr ?_⟩
  · simp only [p256]
    linear_combination g_equation
  · simp only [p256]
    decide +kernel

theorem witness_primeP_is_prime : Fact (Nat.Prime primeP) := ⟨Laws.prime_P⟩

/-- The triple (Gx, Gy, 1) represents G, and a triple with Z = 0 the identity (PointDoubleIsGroupDoubling,
PointAddMixedIsGroupAddition). -/
theorem witness_Represents :
    Represents ((holding [(0, gx), (1, gy), (2, 1)]).engine.jacobian 0) (.some _ _ g_nonsingular) ∧
    val ((holding [(0, gx), (1, gy), (2, 1)]).reg 2) = 1 ∧
    Represents (State.reset.engine.jacobian 13) 0 ∧ val (State.reset.reg 15) = 0 := by
  refine ⟨⟨?_, ?_, ?_⟩, ?_, show val _ = 0 from ?_, ?_⟩ <;> decide +kernel

theorem witness_ScalarMultIsGroupMultiple : isOnCurve ((holding [(14, gx), (15, gy)]).engine.affine 14) = true := by
  decide +kernel

theorem witness_KeyAgreementIsSymmetric : gx.toNat < primeP ∧ gy.toNat < primeP ∧ isOnCurve ⟨gx, gy⟩ = true ∧
    scalarMult 1 ⟨gx, gy⟩ = some ⟨gx, gy⟩ ∧ scalarMult 2 ⟨gx, gy⟩ = some ⟨gx2, gy2⟩ := by decide +kernel

theorem witness_StepKeepsInvariant : EngineInv State.reset ∧ ∃ t, step State.reset = .next t :=
  ⟨⟨⟨fun h => absurd h (by decide), fun h => absurd h (by decide)⟩, .inl rfl⟩, _, rfl⟩

end Sys2Proof.Tests
end

/-! PROOF. The scope statements (spec/00_scope.md): what a command's result depends on, where the window sits on the bus,
and that every step, the idle one included, has a next state. -/

namespace Sys2Proof.Proofs

open Machine Laws

/-! ### A command's result depends on its source registers only (R19, R36, R38) -/

/-- A register some write names holds the same value afterwards, whatever the register file held before. -/
theorem reg_writeAll_congr (e e' : Engine) (ws : List (RegNum × Word)) {n : RegNum} (h : n ∈ ws.map Prod.fst) :
    (e.writeAll ws).reg n = (e'.writeAll ws).reg n := by
  induction ws generalizing e e' with
  | nil => simp at h
  | cons w ws ih =>
    rw [Engine.writeAll_cons, Engine.writeAll_cons]
    by_cases hn : n ∈ ws.map Prod.fst
    · exact ih _ _ hn
    · have hw : n = w.1 := by
        rw [List.map_cons, List.mem_cons] at h
        exact h.resolve_right hn
      rw [Engine.reg_writeAll_of_notMem _ _ _ hn, Engine.reg_writeAll_of_notMem _ _ _ hn, Engine.reg_setReg,
        Engine.reg_setReg, if_pos hw, if_pos hw]

section OperandReads

variable {e e' : Engine} {n : RegNum}

theorem field_congr (h : e.reg n = e'.reg n) : e.field n = e'.field n := congrArg canon h

theorem ncSingle_congr (h : e.reg n = e'.reg n) : e.ncSingle n = e'.ncSingle n :=
  congrArg (fun v => !isCanonical v) h

theorem pairInt_congr (h : e.reg n = e'.reg n) (h1 : e.reg (n + 1) = e'.reg (n + 1)) : e.pairInt n = e'.pairInt n := by
  rw [Engine.pairInt, Engine.pairInt, h, h1]

theorem affine_congr (h : e.reg n = e'.reg n) (h1 : e.reg (n + 1) = e'.reg (n + 1)) : e.affine n = e'.affine n := by
  rw [Engine.affine, Engine.affine, field_congr h, field_congr h1]

theorem ncPair_congr (h : e.reg n = e'.reg n) (h1 : e.reg (n + 1) = e'.reg (n + 1)) : e.ncPair n = e'.ncPair n := by
  rw [Engine.ncPair, Engine.ncPair, ncSingle_congr h, ncSingle_congr h1]

theorem jacobian_congr (h : e.reg n = e'.reg n) (h1 : e.reg (n + 1) = e'.reg (n + 1))
    (h2 : e.reg (n + 2) = e'.reg (n + 2)) : e.jacobian n = e'.jacobian n := by
  rw [Engine.jacobian, Engine.jacobian, field_congr h, field_congr h1, field_congr h2]

theorem ncTriple_congr (h : e.reg n = e'.reg n) (h1 : e.reg (n + 1) = e'.reg (n + 1))
    (h2 : e.reg (n + 2) = e'.reg (n + 2)) : e.ncTriple n = e'.ncTriple n := by
  rw [Engine.ncTriple, Engine.ncTriple, ncSingle_congr h, ncSingle_congr h1, ncSingle_congr h2]

end OperandReads

/-- Engines that agree on a command's sources produce the same writes and flags, and invert 0 together: every operand the
command reads is a function of its source registers (R83). -/
theorem result_congr {e e' : Engine} {i : Instr} (h : ∀ n ∈ i.sources, e.reg n = e'.reg n) :
    writesOf e i = writesOf e' i ∧ flagsOf e i = flagsOf e' i ∧ invertsZero e i = invertsZero e' i := by
  cases i <;> simp only [Instr.sources, List.forall_mem_cons] at h
  case bigintAdd256 rd ra rb | bigintMult256 rd ra rb =>
    obtain ⟨ha, hb, -⟩ := h
    simp only [writesOf, flagsOf, invertsZero, Engine.single, ha, hb, and_self]
  case p256ModReduce rd ra =>
    obtain ⟨ha, ha1, -⟩ := h
    simp only [writesOf, flagsOf, invertsZero, pairInt_congr ha ha1, and_self]
  case p256FieldAdd rd ra rb | p256FieldMult rd ra rb =>
    obtain ⟨ha, hb, -⟩ := h
    simp only [writesOf, flagsOf, invertsZero, field_congr ha, field_congr hb, ncSingle_congr ha, ncSingle_congr hb,
      and_self]
  case p256FieldInvert rd ra =>
    obtain ⟨ha, -⟩ := h
    simp only [writesOf, flagsOf, invertsZero, field_congr ha, ncSingle_congr ha, and_self]
  case p256PointDouble rd ra =>
    obtain ⟨ha, ha1, ha2, -⟩ := h
    simp only [writesOf, flagsOf, invertsZero, jacobian_congr ha ha1 ha2, ncTriple_congr ha ha1 ha2, and_self]
  case p256PointAddMixed rd ra rb =>
    obtain ⟨ha, ha1, ha2, hb, hb1, hb2, -⟩ := h
    simp only [writesOf, flagsOf, invertsZero, jacobian_congr ha ha1 ha2, jacobian_congr hb hb1 hb2,
      ncTriple_congr ha ha1 ha2, ncTriple_congr hb hb1 hb2, and_self]
  case p256ScalarMultNaf rd ra rb =>
    obtain ⟨ha, hb, hb1, -⟩ := h
    simp only [writesOf, flagsOf, invertsZero, Engine.single, ha, affine_congr hb hb1, ncPair_congr hb hb1, and_self]
  case p256PointValidate ra =>
    obtain ⟨ha, ha1, -⟩ := h
    simp only [writesOf, flagsOf, invertsZero, affine_congr ha ha1, ncPair_congr ha ha1, and_self]

/-- A raised fault is recorded: no fault code is 0 (R231). -/
theorem raise_err_ne_zero (s : State) (f : FaultCode) : (s.raise f).engine.err ≠ 0 := by
  rw [State.raise_err]
  cases f <;> decide

/-- Settles O33: the three ways a command ends are told apart by its specifiers and its sources alone, and the completed
states hold the same writes and flags. -/
theorem resultsDependOnSourcesOnly : Obligations.ResultsDependOnSourcesOnly := by
  unfold Obligations.ResultsDependOnSourcesOnly
  intro i s s' t t' he he' hsrc ht ht'
  obtain ⟨hwrites, hflags, hzero⟩ := result_congr (e := s.engine) (e' := s'.engine) hsrc
  obtain rfl := (exec_next_iff i s t).1 ht
  obtain rfl := (exec_next_iff i s' t').1 ht'
  obtain ⟨hwf, h⟩ | ⟨hwf, h0, h⟩ | ⟨hwf, h0, h⟩ := outcomeOf_cases i s
  · rw [h, outcomeOf_of_not_wf s' hwf]
    exact ⟨rfl, fun herr => absurd herr (raise_err_ne_zero s _)⟩
  · rw [h, outcomeOf_of_invertsZero hwf (hzero ▸ h0)]
    exact ⟨rfl, fun herr => absurd herr (raise_err_ne_zero s _)⟩
  · rw [h, outcomeOf_of_completes hwf (hzero ▸ h0), ← hwrites, ← hflags]
    refine ⟨by simp [he, he'], fun _ => ⟨List.map_congr_left fun n hn => ?_, rfl⟩⟩
    exact reg_writeAll_congr s.engine s'.engine (writesOf s.engine i) (by rwa [writesOf_regs])

/-! ### The window on the bus (R10, R14, R240) -/

/-- An access at or above the end of the window is not addressed to the engine (R240). -/
theorem windowAccess_of_outside {off : Nat} (h : 0x400 ≤ off) (a : Access) (s : State) :
    windowAccess off a s = .next (s.respond .notAddressed) := by
  unfold windowAccess
  rw [if_pos (by unfold Config.windowSize; omega)]

/-- The bus access at `BASE + off` is the window access at `off` (R14). -/
theorem busAccess_base_add (off : Nat) (a : Access) (s : State) :
    busAccess (Config.base + off) a s = windowAccess off a s := by
  unfold busAccess
  rw [if_pos (Nat.le_add_right _ _), Nat.add_sub_cancel_left]

/-- A bus access below `BASE` or above the window is not addressed to the engine (R240). -/
theorem busAccess_of_outside {addr : Nat} (h : addr < Config.base ∨ Config.base + 0x400 ≤ addr) (a : Access)
    (s : State) : busAccess addr a s = .next (s.respond .notAddressed) := by
  unfold busAccess
  rcases h with hlow | hhigh
  · rw [if_neg (Nat.not_le_of_lt hlow)]
  · rw [if_pos (Nat.le_of_add_right_le hhigh), windowAccess_of_outside (Nat.le_sub_of_add_le' hhigh)]

/-- Settles O13: both accesses are performed on the state with the event removed, where `busAccess` finds the offset. -/
theorem busAccessReachesTheWindow : Obligations.BusAccessReachesTheWindow := by
  unfold Obligations.BusAccessReachesTheWindow
  intro s addr a rest hhost
  constructor
  · rintro off - rfl
    rw [step_bus hhost, busAccess_base_add]
    exact (step_window (s := { s with host := .window off a :: rest }) rfl).symm
  · intro hout
    refine ⟨answered s rest .notAddressed, ?_, answered_engine s rest _, answeredWith_answered s rest _⟩
    rw [step_bus hhost, busAccess_of_outside hout]
    rfl

/-! ### Every step has a next state (R18, R19) -/

/-- With no event pending the engine is idle (R18). -/
theorem step_idle {s : State} (h : s.host = []) : step s = .next s := by
  unfold step
  rw [h]

/-- Settles O14. -/
theorem idleEngineStays : Obligations.IdleEngineStays := fun _ => step_idle

/-- A CMD write is ignored in the faulted state and executes a word otherwise; both have a next state (R34). -/
theorem writeCmd_next (w : CmdWord) (s : State) : ∃ t, writeCmd w s = .next t := by
  unfold writeCmd
  split
  · exact ⟨s, rfl⟩
  · obtain ⟨t, ht, -⟩ := execute_next w (s.setLastCmd w)
    exact ⟨t, ht⟩

/-- A write to any word of the window has a next state (R53). -/
theorem writeReg_next (r : WindowReg) (v : BitVec 32) (s : State) : ∃ t, writeReg r v s = .next t := by
  cases r with
  | cmd => exact writeCmd_next v s
  | limb | ctrl | status | id | reserved => exact ⟨_, rfl⟩

/-- A window access only answers, or is a legal write to the word of the map at its offset. -/
theorem windowAccess_cases (off : Nat) (a : Access) (s : State) :
    (∃ r, windowAccess off a s = .next (s.respond r)) ∨
    (∃ v, a = .write (.b32 v) ∧ off < 0x400 ∧ off % 4 = 0 ∧ s.inReset = false ∧
      windowAccess off a s = writeReg (windowReg off) v (s.respond .written)) := by
  unfold windowAccess
  split
  · exact .inl ⟨_, rfl⟩
  next hoff =>
    split
    · exact .inl ⟨_, rfl⟩
    next hreset =>
      split
      · exact .inl ⟨_, rfl⟩
      next halign =>
        split
        · exact .inl ⟨_, rfl⟩
        · exact .inl ⟨_, rfl⟩
        next v => exact .inr ⟨v, rfl, Nat.lt_of_not_ge hoff, by omega, by simpa using hreset, rfl⟩
        · exact .inl ⟨_, rfl⟩

theorem windowAccess_next (off : Nat) (a : Access) (s : State) : ∃ t, windowAccess off a s = .next t := by
  obtain ⟨r, h⟩ | ⟨v, -, -, -, -, h⟩ := windowAccess_cases off a s
  · exact ⟨_, h⟩
  · rw [h]
    exact writeReg_next _ v _

theorem busAccess_next (addr : Nat) (a : Access) (s : State) : ∃ t, busAccess addr a s = .next t := by
  unfold busAccess
  split
  · exact windowAccess_next _ a s
  · exact ⟨_, rfl⟩

theorem perform_next (ev : HostEvent) (s : State) : ∃ t, perform ev s = .next t := by
  cases ev with
  | window off a => exact windowAccess_next off a s
  | bus addr a => exact busAccess_next addr a s
  | resetLine asserted => exact ⟨_, rfl⟩

/-- Settles O15, by the host's list of events. -/
theorem everyStepHasNextState : Obligations.EveryStepHasNextState := by
  unfold Obligations.EveryStepHasNextState
  intro s
  cases hhost : s.host with
  | nil => exact ⟨s, step_idle hhost⟩
  | cons ev rest =>
    unfold step
    rw [hhost]
    exact perform_next ev _

end Sys2Proof.Proofs

/-! PROOF. The state statements (spec/10_state.md): the reset values, the STATUS word, CMD and LASTCMD, what a command
changes, and the invariant on ERR, LASTCMD and the flags. -/

namespace Sys2Proof.Proofs

open Machine Laws

/-! ### Commands that decode have legal specifiers (R90) -/

/-- A word decodes to a command whose specifiers are in range: checks 4 and 5 of R90 on the row of R83 are the range
checks of the command the row's opcode selects. -/
theorem wf_of_decode {w : CmdWord} {i : Instr} (h : decode w = .ok i) : i.wf = true := by
  obtain ⟨hlegal, hsel⟩ := (decode_ok_iff w i).1 h
  obtain ⟨r, hrow, -, -, hpair, htriple⟩ := (illegality_eq_none_iff w).1 hlegal
  obtain ⟨hop, rfl⟩ | ⟨hop, rfl⟩ | ⟨hop, rfl⟩ | ⟨hop, rfl⟩ | ⟨hop, rfl⟩ | ⟨hop, rfl⟩ | ⟨hop, rfl⟩ | ⟨hop, rfl⟩ |
    ⟨hop, rfl⟩ | ⟨hop, rfl⟩ := select_cases hsel
  all_goals
    rw [hop] at hrow
    obtain rfl := Option.some.inj hrow
    simp_all only [Row.all, Shape.pairOk, Shape.tripleOk, Instr.wf, Bool.and_true, Bool.true_and]

/-! ### Reset (R39, R35) -/

theorem reset_holdsResetValues : HoldsResetValues Engine.reset :=
  ⟨Engine.reset_reg, rfl, rfl, rfl, rfl, rfl, rfl⟩

/-- The end of a hardware reset leaves the engine's reset values (R260). -/
theorem driveReset_release_engine {s : State} (h : s.inReset = true) : (s.driveReset false).engine = Engine.reset := by
  simp [State.driveReset, h]

/-- Settles O17: all three ways to a reset leave the one engine `Engine.reset`. -/
theorem resetStateIsZero : Obligations.ResetStateIsZero := by
  unfold Obligations.ResetStateIsZero
  intro e he
  obtain rfl : e = Engine.reset := by
    obtain rfl | ⟨s, rfl⟩ | ⟨s, hreset, rfl⟩ := he
    · rfl
    · rfl
    · exact driveReset_release_engine hreset
  exact ⟨reset_holdsResetValues, by decide, rfl, rfl, rfl⟩

/-- A CTRL write is `writeCtrl` on the answered state (R35). -/
theorem step_ctrlWrite {s : State} {v : BitVec 32} {rest : List HostEvent}
    (h : NextAccess s 0x208 (.write (.b32 v)) rest) :
    step s = .next ((answered s rest .written).writeCtrl v) :=
  step_write h (by decide) (by decide)

/-- A CTRL write touches nothing around the engine (R261; log entry 2). -/
theorem writeCtrl_around (s : State) (v : BitVec 32) : SameAround s (s.writeCtrl v) := by
  unfold State.writeCtrl
  split <;> exact ⟨rfl, rfl, rfl⟩

/-- What only touches the engine after the answer keeps the answer. -/
theorem answeredWith_of_sameAround {s t : State} {r : Response} {rest : List HostEvent}
    (h : SameAround (answered s rest r) t) : AnsweredWith s t r rest := by
  obtain ⟨hreset, hhost, hlog⟩ := h
  exact ⟨hhost, hlog, hreset⟩

/-- Settles O18, by bit 0 of the written word. -/
theorem ctrlWriteResets : Obligations.CtrlWriteResets := by
  unfold Obligations.CtrlWriteResets
  intro s rest
  constructor
  · intro v h
    have hbit : v.getLsbD 0 = true ↔ v.toNat % 2 = 1 := by
      rw [BitVec.getLsbD, Nat.testBit_zero, decide_eq_true_iff]
    refine ⟨_, step_ctrlWrite h, answeredWith_of_sameAround (writeCtrl_around _ v), fun h1 => ?_, fun h0 => ?_⟩
    · rw [State.writeCtrl, if_pos (hbit.2 h1)]
      exact reset_holdsResetValues
    · rw [State.writeCtrl, if_neg (by rw [hbit]; omega)]
      rfl
  · intro h
    exact ⟨_, step_read h (by decide) (by decide), rfl, answeredWith_answered s rest _⟩

/-! ### The STATUS word (R27) -/

/-- Settles O16: bits 0 to 3 are the flags; of the bits from 4 on, the first four are reserved, the next four ERR. -/
theorem statusWordLayout : Obligations.StatusWordLayout := by
  unfold Obligations.StatusWordLayout
  intro e k
  unfold Engine.statusWord
  simp only [BitVec.getLsbD_append, BitVec.getLsbD_zero, BitVec.getLsbD_ofBool]
  match k with
  | 0 | 1 | 2 | 3 => rfl
  | k + 4 =>
    by_cases hlow : k < 4
    · simp [hlow]
    · have herr : k - 4 < 4 ↔ k + 4 < 12 := by omega
      simp [hlow, herr, Nat.le_of_not_lt hlow]

/-! ### CMD and LASTCMD (R34) -/

/-- Settles O5. -/
theorem stepRunsDecodedCommand : Obligations.StepRunsDecodedCommand := by
  unfold Obligations.StepRunsDecodedCommand
  intro s w rest i h herr hdec
  rw [step_cmdWrite h herr, execute, hdec]
  rfl

/-- Settles O6: the accepted write by what `execute` can do, the read and the ignored write by the answered state. -/
theorem cmdOffsetAcceptsOrIgnores : Obligations.CmdOffsetAcceptsOrIgnores := by
  unfold Obligations.CmdOffsetAcceptsOrIgnores
  intro s rest
  refine ⟨fun w h herr => ⟨?_, step_cmdWrite h herr⟩, fun h => ?_, fun w h herr => ?_⟩
  · obtain ⟨t, ht, haround, hlast⟩ := execute_next w ((answered s rest .written).setLastCmd w)
    exact ⟨t, (step_cmdWrite h herr).trans ht, hlast, answeredWith_of_sameAround haround⟩
  · exact ⟨_, step_read h (by decide) (by decide), rfl, answeredWith_answered s rest _⟩
  · exact ⟨_, step_cmdWrite_faulted h herr, rfl, answeredWith_answered s rest _⟩

/-! ### What a command changes (R36, R233, R268) -/

/-- Raising a fault changes ERR and nothing else (R233). -/
theorem raise_onlyErrBecomes (s : State) (f : FaultCode) : OnlyErrBecomes s (s.raise f) f.code :=
  ⟨rfl, fun _ => rfl, rfl, rfl, rfl, rfl, rfl⟩

/-- Completing a command changes the registers it writes and the flags, and nothing else (R36, R268). -/
theorem complete_keepsAllBut (s : State) (ws : List (RegNum × Word)) (f : Flags) :
    KeepsAllBut s (s.complete ws f) (ws.map Prod.fst) :=
  ⟨fun n hn => s.engine.reg_writeAll_of_notMem ws n hn, s.complete_err ws f, s.complete_lastCmd ws f, rfl, rfl, rfl⟩

/-- The inversions of 0 modulo P are the inversions of a register whose value is a multiple of P (R144, R158). -/
theorem invertsZero_iff (e : Engine) (i : Instr) :
    invertsZero e i = true ↔ ∃ rd ra, i = .p256FieldInvert rd ra ∧ (e.reg ra).toNat % primeP = 0 := by
  cases i <;> simp [invertsZero, isZero_iff_toNat, field_toNat]

/-- Settles O30. -/
theorem outOfRangeSpecifierFaults : Obligations.OutOfRangeSpecifierFaults := by
  unfold Obligations.OutOfRangeSpecifierFaults
  intro i s hwf
  refine ⟨_, exec_eq i s, ?_⟩
  rw [outcomeOf_of_not_wf s hwf]
  exact raise_onlyErrBecomes s .illegalCmd

/-- Settles O31: a legal command ends in one of two ways, INV_ZERO or completion. -/
theorem commandsWriteAllOrNothing : Obligations.CommandsWriteAllOrNothing := by
  unfold Obligations.CommandsWriteAllOrNothing
  intro i s hwf
  refine ⟨_, exec_eq i s, ?_⟩
  cases h0 : invertsZero s.engine i with
  | true =>
    rw [outcomeOf_of_invertsZero hwf h0]
    exact .inr ⟨raise_onlyErrBecomes s .invZero, (invertsZero_iff s.engine i).1 h0⟩
  | false =>
    rw [outcomeOf_of_completes hwf h0, ← writesOf_regs s.engine i]
    exact .inl (complete_keepsAllBut s _ _)

/-! ### Canonical results (R25) -/

/-- All three coordinates are canonical (R25). -/
def IsCanonicalTriple (p : Jacobian) : Prop := p.x.toNat < primeP ∧ p.y.toNat < primeP ∧ p.z.toNat < primeP

theorem zero_toNat_lt_primeP : (0 : Word).toNat < primeP := primeP_pos

theorem jacobian_canonical (e : Engine) (n : RegNum) : IsCanonicalTriple (e.jacobian n) :=
  ⟨field_lt e n, field_lt e (n + 1), field_lt e (n + 2)⟩

theorem infinity_canonical : IsCanonicalTriple .infinity :=
  ⟨zero_toNat_lt_primeP, zero_toNat_lt_primeP, zero_toNat_lt_primeP⟩

theorem normal_canonical {p : Jacobian} (h : IsCanonicalTriple p) : IsCanonicalTriple p.normal := by
  unfold Jacobian.normal
  split
  · exact infinity_canonical
  · exact h

/-- A doubling gives canonical coordinates, whatever its operand holds (R184). -/
theorem pointDouble_canonical (p : Jacobian) : IsCanonicalTriple (pointDouble p) := by
  unfold pointDouble
  split
  · exact infinity_canonical
  · exact normal_canonical (doubleFormulas_lt p)

/-- A mixed addition of canonical operands gives canonical coordinates, in each of the five cases of R187. -/
theorem pointAddMixed_canonical {p q : Jacobian} (hp : IsCanonicalTriple p) (hq : IsCanonicalTriple q) :
    IsCanonicalTriple (pointAddMixed p q) := by
  unfold pointAddMixed
  dsimp only
  split
  · exact normal_canonical hp
  split
  · exact normal_canonical hq
  split
  · exact pointDouble_canonical q
  split
  · exact infinity_canonical
  · exact generalAdd_lt p _ _

/-- The affine result of a scalar multiplication is a pair of products modulo P, or `(0, 0)` (R205, R206). -/
theorem affineOrZero_scalarMult_lt (k : Word) (p : Affine) :
    (affineOrZero (scalarMult k p)).x.toNat < primeP ∧ (affineOrZero (scalarMult k p)).y.toNat < primeP := by
  unfold scalarMult toAffine
  split
  · exact ⟨zero_toNat_lt_primeP, zero_toNat_lt_primeP⟩
  · exact ⟨mulMod_lt _ _, mulMod_lt _ _⟩

/-- The three writes of a canonical triple are canonical values. -/
theorem jacobian_writes_lt {p : Jacobian} (h : IsCanonicalTriple p) (rd : RegNum) :
    ∀ v ∈ (p.writes rd).map Prod.snd, v.toNat < primeP := by
  obtain ⟨hx, hy, hz⟩ := h
  simp [Jacobian.writes, tripleWrites, hx, hy, hz]

/-- Every value a command writes as a field element is canonical (R25). -/
theorem writesOf_lt_primeP (e : Engine) {i : Instr} (h : i.writesField = true) :
    ∀ v ∈ (writesOf e i).map Prod.snd, v.toNat < primeP := by
  cases i with
  | bigintAdd256 | bigintMult256 => exact absurd h Bool.false_ne_true
  | p256ModReduce => exact List.forall_mem_singleton.2 (reduce_lt _)
  | p256FieldAdd => exact List.forall_mem_singleton.2 (addMod_lt (field_lt e _) (field_lt e _))
  | p256FieldMult => exact List.forall_mem_singleton.2 (mulMod_lt _ _)
  | p256FieldInvert => exact List.forall_mem_singleton.2 (invMod_lt _)
  | p256PointDouble rd => exact jacobian_writes_lt (pointDouble_canonical _) rd
  | p256PointAddMixed rd =>
    exact jacobian_writes_lt (pointAddMixed_canonical (jacobian_canonical e _) (jacobian_canonical e _)) rd
  | p256ScalarMultNaf rd ra rb =>
    simpa [writesOf, pairWrites] using affineOrZero_scalarMult_lt (e.single ra) (e.affine rb)
  | p256PointValidate => exact List.forall_mem_nil _

/-- A register some write names holds one of the values written. -/
theorem reg_writeAll_mem (e : Engine) (ws : List (RegNum × Word)) {n : RegNum} (h : n ∈ ws.map Prod.fst) :
    (e.writeAll ws).reg n ∈ ws.map Prod.snd := by
  induction ws generalizing e with
  | nil => simp at h
  | cons w ws ih =>
    rw [Engine.writeAll_cons, List.map_cons, List.mem_cons]
    by_cases hn : n ∈ ws.map Prod.fst
    · exact .inr (ih _ hn)
    · rw [List.map_cons, List.mem_cons] at h
      rw [Engine.reg_writeAll_of_notMem _ _ _ hn, Engine.reg_setReg, if_pos (h.resolve_right hn)]
      exact .inl rfl

/-- Settles O35: a command that did not fault completed, and each destination then holds one of its canonical results. -/
theorem fieldResultsAreCanonical : Obligations.FieldResultsAreCanonical := by
  unfold Obligations.FieldResultsAreCanonical
  intro i s t hfield _ ht herr n hn
  obtain rfl := (exec_next_iff i s t).1 ht
  obtain ⟨-, h⟩ | ⟨-, -, h⟩ | ⟨-, -, h⟩ := outcomeOf_cases i s <;> rw [h] at herr ⊢
  · exact absurd herr (raise_err_ne_zero s _)
  · exact absurd herr (raise_err_ne_zero s _)
  · rw [← writesOf_regs s.engine i] at hn
    exact writesOf_lt_primeP s.engine hfield _ (reg_writeAll_mem s.engine _ hn)

/-! ### The invariant on ERR, LASTCMD and the flags (R28 to R32, R34, R36, R231) -/

theorem fromOneCommand_none : FlagsFromOneCommand Flags.none := ⟨nofun, nofun⟩

theorem fromOneCommand_ofCarry (c : Bool) : FlagsFromOneCommand (Flags.ofCarry c) :=
  ⟨fun _ => ⟨rfl, rfl, rfl⟩, fun _ => rfl⟩

theorem fromOneCommand_ofField (nc : Bool) : FlagsFromOneCommand (Flags.ofField nc) := ⟨nofun, fun _ => rfl⟩

theorem fromOneCommand_ofPoint (inf nc : Bool) : FlagsFromOneCommand (Flags.ofPoint inf nc) := ⟨nofun, nofun⟩

theorem fromOneCommand_ofVerdict (v nc : Bool) : FlagsFromOneCommand (Flags.ofVerdict v nc) := ⟨nofun, fun _ => rfl⟩

/-- The flags a completed command writes are those of one command (R36). -/
theorem flagsOf_fromOneCommand (e : Engine) (i : Instr) : FlagsFromOneCommand (flagsOf e i) := by
  cases i with
  | bigintAdd256 => exact fromOneCommand_ofCarry _
  | bigintMult256 | p256ModReduce => exact fromOneCommand_none
  | p256FieldAdd | p256FieldMult | p256FieldInvert => exact fromOneCommand_ofField _
  | p256PointDouble | p256PointAddMixed | p256ScalarMultNaf => exact fromOneCommand_ofPoint _ _
  | p256PointValidate => exact fromOneCommand_ofVerdict _ _

/-- The invariant holds of every machine whose engine has the reset values (R39). -/
theorem engineInv_of_reset {s : State} (h : s.engine = Engine.reset) : EngineInv s := by
  unfold EngineInv
  rw [h]
  exact ⟨fromOneCommand_none, .inl rfl⟩

/-- Settles O56. -/
theorem resetHasInvariant : Obligations.ResetHasInvariant := engineInv_of_reset rfl

/-- Executing an accepted word leaves ERR 0 with the flags of the command, or the code of a fault the word is the cause
of: ILLEGAL_CMD when it decodes to nothing, INV_ZERO when it decodes to an inversion. -/
theorem execute_engineInv {w : CmdWord} {s t : State} (hlast : s.engine.lastCmd = w) (herr : s.engine.err = 0)
    (hflags : FlagsFromOneCommand s.engine.flags) (h : execute w s = .next t) : EngineInv t := by
  subst hlast
  obtain ⟨i, hdec, hexec⟩ | ⟨hillegal, hexec⟩ := execute_cases s.engine.lastCmd s <;>
    obtain rfl := Host.Outcome.next.inj (hexec.symm.trans h)
  · obtain ⟨hwf, ho⟩ | ⟨-, h0, ho⟩ | ⟨-, -, ho⟩ := outcomeOf_cases i s <;> rw [ho]
    · exact absurd (wf_of_decode hdec) (Bool.eq_false_iff.1 hwf)
    · obtain ⟨rd, ra, rfl, -⟩ := (invertsZero_iff s.engine i).1 h0
      exact ⟨hflags, .inr (.inr ⟨rfl, rd, ra, hdec⟩)⟩
    · exact ⟨flagsOf_fromOneCommand s.engine i, .inl ((s.complete_err _ _).trans herr)⟩
  · exact ⟨hflags, .inr (.inl ⟨rfl, hillegal⟩)⟩

theorem writeCmd_engineInv {w : CmdWord} {s t : State} (hs : EngineInv s) (h : writeCmd w s = .next t) :
    EngineInv t := by
  unfold writeCmd at h
  split at h
  · obtain rfl := Host.Outcome.next.inj h
    exact hs
  next hfault =>
    have herr : s.engine.err = 0 := (faulted_eq_false s.engine).1 (Bool.eq_false_iff.2 hfault)
    exact execute_engineInv (s := s.setLastCmd w) rfl herr hs.1 h

theorem writeCtrl_engineInv {s : State} (hs : EngineInv s) (v : BitVec 32) : EngineInv (s.writeCtrl v) := by
  unfold State.writeCtrl
  split
  · exact engineInv_of_reset rfl
  · exact hs

/-- A write to any word of the window keeps the invariant; a limb write touches neither ERR, LASTCMD nor the flags (R53). -/
theorem writeReg_engineInv {r : WindowReg} {v : BitVec 32} {s t : State} (hs : EngineInv s)
    (h : writeReg r v s = .next t) : EngineInv t := by
  cases r with
  | cmd => exact writeCmd_engineInv hs h
  | ctrl =>
    obtain rfl := Host.Outcome.next.inj h
    exact writeCtrl_engineInv hs v
  | limb | status | id | reserved =>
    obtain rfl := Host.Outcome.next.inj h
    exact hs

theorem windowAccess_engineInv {off : Nat} {a : Access} {s t : State} (hs : EngineInv s)
    (h : windowAccess off a s = .next t) : EngineInv t := by
  obtain ⟨r, hw⟩ | ⟨v, -, -, -, -, hw⟩ := windowAccess_cases off a s <;> rw [hw] at h
  · obtain rfl := Host.Outcome.next.inj h
    exact hs
  · exact writeReg_engineInv (s := s.respond .written) hs h

theorem busAccess_engineInv {addr : Nat} {a : Access} {s t : State} (hs : EngineInv s)
    (h : busAccess addr a s = .next t) : EngineInv t := by
  unfold busAccess at h
  split at h
  · exact windowAccess_engineInv hs h
  · obtain rfl := Host.Outcome.next.inj h
    exact hs

theorem driveReset_engineInv {s : State} (hs : EngineInv s) (asserted : Bool) : EngineInv (s.driveReset asserted) := by
  unfold State.driveReset
  split
  · exact hs
  split
  · exact engineInv_of_reset rfl
  · exact hs

theorem perform_engineInv {ev : HostEvent} {s t : State} (hs : EngineInv s) (h : perform ev s = .next t) :
    EngineInv t := by
  cases ev with
  | window off a => exact windowAccess_engineInv hs h
  | bus addr a => exact busAccess_engineInv hs h
  | resetLine asserted =>
    obtain rfl := Host.Outcome.next.inj h
    exact driveReset_engineInv hs asserted

/-- Settles O55, by the host's list of events: the invariant does not mention the list, so the event is performed on a
state that still has it. -/
theorem stepKeepsInvariant : Obligations.StepKeepsInvariant := by
  unfold Obligations.StepKeepsInvariant
  intro s t hs h
  cases hhost : s.host with
  | nil =>
    obtain rfl := Host.Outcome.next.inj ((step_idle hhost).symm.trans h)
    exact hs
  | cons ev rest =>
    unfold step at h
    rw [hhost] at h
    exact perform_engineInv (s := { s with host := rest }) hs h

end Sys2Proof.Proofs

/-! PROOF. The memory statements (spec/20_memory.md): what a legal read returns, what a legal write changes, and that an
unsupported access changes nothing. -/

namespace Sys2Proof.Proofs

open Machine Laws

/-! ### Legal reads (R52) -/

/-- The STATUS word as a number: the four flags in bits 3:0 and ERR from bit 8 on (R27). -/
theorem statusWord_toNat (e : Engine) : e.statusWord.toNat =
    e.flags.c.toNat + 2 * e.flags.v.toNat + 4 * e.flags.inf.toNat + 8 * e.flags.nc.toNat + 2 ^ 8 * e.err.toNat := by
  unfold Engine.statusWord
  simp only [toNat_append_lt, BitVec.toNat_ofBool, BitVec.toNat_zero]
  omega

/-- Settles O10: the answer is the word of the map, read row by row. -/
theorem windowReadsReturnTheMap : Obligations.WindowReadsReturnTheMap := by
  unfold Obligations.WindowReadsReturnTheMap
  intro s off rest h halign hoff
  refine ⟨_, _, step_read h halign hoff, rfl, answeredWith_answered s rest _, ?limb, ?cmd, ?status, ?ctrl, ?id,
    ?reserved⟩
  case limb =>
    rintro i j rfl
    rw [windowReg_limb]
    exact limb_toNat (s.reg i) j
  case cmd => rintro rfl; rfl
  case status => rintro rfl; exact statusWord_toNat s.engine
  case ctrl => rintro rfl; rfl
  case id => rintro rfl; rfl
  case reserved => intro hres; rw [windowReg_reserved hres]; rfl

/-! ### Legal writes (R53) -/

/-- A CMD write, ignored or executed, touches nothing around the engine (R34). -/
theorem writeCmd_next_around (w : CmdWord) (s : State) : ∃ t, writeCmd w s = .next t ∧ SameAround s t := by
  unfold writeCmd
  split
  · exact ⟨s, rfl, rfl, rfl, rfl⟩
  · obtain ⟨t, ht, haround, -⟩ := execute_next w (s.setLastCmd w)
    exact ⟨t, ht, haround⟩

/-- A write to any word of the window touches nothing around the engine (R53). -/
theorem writeReg_next_around (r : WindowReg) (v : BitVec 32) (s : State) :
    ∃ t, writeReg r v s = .next t ∧ SameAround s t := by
  cases r with
  | limb i j => exact ⟨s.writeLimb i j v, rfl, rfl, rfl, rfl⟩
  | cmd => exact writeCmd_next_around v s
  | ctrl => exact ⟨s.writeCtrl v, rfl, writeCtrl_around s v⟩
  | status | id | reserved => exact ⟨s, rfl, rfl, rfl, rfl⟩

/-- Reading any limb of any register after a limb write: the one written holds the datum, the others what they held. -/
theorem writeLimb_limb (s : State) (i n : RegNum) (j k : Fin 8) (v : Limb) :
    limb ((s.writeLimb i j v).engine.reg n) k = if n = i ∧ k = j then v else limb (s.engine.reg n) k := by
  rw [State.writeLimb, Engine.reg_setReg]
  by_cases hn : n = i
  · subst hn
    simp only [if_true, true_and, limb_setLimb _ _ _ _ k.isLt, Fin.ext_iff]
  · rw [if_neg hn, if_neg fun h => hn h.1]

section LegalWrites

variable {s : State} {off : Nat} {v : BitVec 32} {rest : List HostEvent}

/-- A legal write has a next state, with the event gone and `written` answered (R53). -/
theorem step_write_next (h : NextAccess s off (.write (.b32 v)) rest) (halign : off % 4 = 0) (hoff : off < 0x400) :
    ∃ t, step s = .next t ∧ AnsweredWith s t .written rest := by
  obtain ⟨t, ht, haround⟩ := writeReg_next_around (windowReg off) v (answered s rest .written)
  exact ⟨t, (step_write h halign hoff).trans ht, answeredWith_of_sameAround haround⟩

/-- A write to limb `j` of `W[i]`, in any state out of reset (R53, R234). -/
theorem step_limbWrite {i : RegNum} {j : Fin 8}
    (h : NextAccess s (0x20 * i.val + 4 * j.val) (.write (.b32 v)) rest) :
    step s = .next ((answered s rest .written).writeLimb i j v) := by
  rw [step_write h (by omega) (by omega), windowReg_limb]
  rfl

/-- STATUS, ID and the reserved words ignore a write (R53). -/
theorem step_ignoredWrite (h : NextAccess s off (.write (.b32 v)) rest) (halign : off % 4 = 0) (hoff : off < 0x400)
    (hro : off = 0x204 ∨ 0x20C ≤ off) : step s = .next (answered s rest .written) := by
  rw [step_write h halign hoff]
  obtain rfl | rfl | hres : off = 0x204 ∨ off = 0x20C ∨ 0x210 ≤ off := by omega
  · rfl
  · rfl
  · rw [windowReg_reserved hres]
    rfl

end LegalWrites

/-- Settles O11: the step has one next state, which the rule of the offset's row of the map names. -/
theorem windowWritesFollowTheMap : Obligations.WindowWritesFollowTheMap := by
  unfold Obligations.WindowWritesFollowTheMap
  intro s off v rest h halign hoff
  obtain ⟨t, ht, hanswer⟩ := step_write_next h halign hoff
  have next_eq {u : State} (hu : step s = .next u) : u = t := Host.Outcome.next.inj (hu.symm.trans ht)
  refine ⟨t, ht, hanswer, ?limb, ?cmd, ?cmdFaulted, ?ctrlReset, ?ctrlKeep, ?ignored⟩
  case limb =>
    rintro i j rfl
    obtain rfl := next_eq (step_limbWrite h)
    refine ⟨fun n k => ?_, rfl, rfl, rfl⟩
    have hlimb := congrArg BitVec.toNat (writeLimb_limb (answered s rest .written) i n j k v)
    rwa [apply_ite BitVec.toNat, limb_toNat, limb_toNat] at hlimb
  case cmd =>
    rintro rfl herr
    exact step_cmdWrite h herr
  case cmdFaulted =>
    rintro rfl herr
    obtain rfl := next_eq (step_cmdWrite_faulted h herr)
    rfl
  case ctrlReset =>
    rintro rfl hbit
    obtain rfl := next_eq (step_ctrlWrite h)
    rw [State.writeCtrl, if_pos hbit]
    exact reset_holdsResetValues
  case ctrlKeep =>
    rintro rfl hbit
    obtain rfl := next_eq (step_ctrlWrite h)
    rw [State.writeCtrl, if_neg (Bool.eq_false_iff.1 hbit)]
    rfl
  case ignored =>
    intro hro
    obtain rfl := next_eq (step_ignoredWrite h halign hoff hro)
    rfl

/-! ### Unsupported accesses (R57, R240) -/

/-- A misaligned access, and one that is not 32 bits wide, is answered with a bus error and does nothing else (R57). -/
theorem step_unsupported {s : State} {off : Nat} {a : Access} {rest : List HostEvent} (h : NextAccess s off a rest)
    (hoff : off < 0x400) (hbad : off % 4 ≠ 0 ∨ (a ≠ .read .w32 ∧ ∀ v, a ≠ .write (.b32 v))) :
    step s = .next (answered s rest .busError) := by
  rw [step_window h.1]
  unfold windowAccess
  rw [if_neg (by unfold Config.windowSize; omega), if_neg (by simp [h.2])]
  by_cases halign : off % 4 = 0
  · rw [if_neg (not_not_intro halign)]
    obtain ⟨hread, hwrite⟩ := hbad.resolve_left (not_not_intro halign)
    match a with
    | .read .w8 | .read .w16 | .read .w64 => rfl
    | .write (.b8 _) | .write (.b16 _) | .write (.b64 _) => rfl
    | .read .w32 => exact absurd rfl hread
    | .write (.b32 v) => exact absurd rfl (hwrite v)
  · rw [if_pos halign]
    rfl

/-- Settles O12: every unsupported access leads to the one answered state. -/
theorem unsupportedAccessChangesNothing : Obligations.UnsupportedAccessChangesNothing := by
  unfold Obligations.UnsupportedAccessChangesNothing
  intro s off a rest h hoff hbad
  exact ⟨answered s rest .busError, step_unsupported h hoff hbad, answered_engine s rest _,
    answeredWith_answered s rest _⟩

end Sys2Proof.Proofs

/-! PROOF. The encoding statements (spec/30_encoding.md): the decoder and the encoder are inverse to each other, the decoder
accepts exactly the legal words, and an illegal word raises ILLEGAL_CMD. -/

namespace Sys2Proof.Proofs

open Machine Laws

/-! ### The checks of one row of R83 (R90) -/

/-- Check 3 of R90: an unused field is 0. -/
theorem unusedOk_iff (sh : Shape) (n : RegNum) : sh.unusedOk n = true ↔ (sh = .unused → n.val = 0) := by
  cases sh <;> simp [Shape.unusedOk]

/-- Check 4 of R90: a pair base is at most 14. -/
theorem pairOk_iff (sh : Shape) (n : RegNum) : sh.pairOk n = true ↔ (sh = .pair → n.val ≤ 14) := by
  cases sh <;> simp [Shape.pairOk, RegNum.isPairBase]

/-- Check 5 of R90: a triple base is at most 13. -/
theorem tripleOk_iff (sh : Shape) (n : RegNum) : sh.tripleOk n = true ↔ (sh = .triple → n.val ≤ 13) := by
  cases sh <;> simp [Shape.tripleOk, RegNum.isTripleBase]

/-- A check passes on a row when it passes on each of the word's three specifiers. -/
theorem rowAll_iff (r : Row) (check : Shape → RegNum → Bool) (w : CmdWord) : r.all check w = true ↔
    check r.rd (rdField w) = true ∧ check r.ra (raField w) = true ∧ check r.rb (rbField w) = true := by
  simp only [Row.all, Bool.and_eq_true, and_assoc]

/-- The ten rows of R83. -/
theorem rowOf_cases {op : BitVec 8} {r : Row} (h : rowOf op = some r) :
    (op = 1 ∧ r = ⟨.single, .single, .single⟩) ∨ (op = 2 ∧ r = ⟨.pair, .single, .single⟩) ∨
    (op = 3 ∧ r = ⟨.single, .pair, .unused⟩) ∨ (op = 4 ∧ r = ⟨.single, .single, .single⟩) ∨
    (op = 5 ∧ r = ⟨.single, .single, .single⟩) ∨ (op = 6 ∧ r = ⟨.single, .single, .unused⟩) ∨
    (op = 7 ∧ r = ⟨.triple, .triple, .unused⟩) ∨ (op = 8 ∧ r = ⟨.triple, .triple, .triple⟩) ∨
    (op = 9 ∧ r = ⟨.pair, .single, .pair⟩) ∨ (op = 10 ∧ r = ⟨.unused, .pair, .unused⟩) := by
  unfold rowOf at h
  repeat' split at h
  all_goals simp_all

/-- The opcodes that have a row are 1 to 10 (R85, R87). -/
theorem rowOf_isSome_iff (op : BitVec 8) : (∃ r, rowOf op = some r) ↔ 1 ≤ op.toNat ∧ op.toNat ≤ 10 := by
  constructor
  · rintro ⟨r, hrow⟩
    obtain ⟨rfl, -⟩ | ⟨rfl, -⟩ | ⟨rfl, -⟩ | ⟨rfl, -⟩ | ⟨rfl, -⟩ | ⟨rfl, -⟩ | ⟨rfl, -⟩ | ⟨rfl, -⟩ | ⟨rfl, -⟩ |
      ⟨rfl, -⟩ := rowOf_cases hrow <;> decide
  · rintro ⟨hlow, hhigh⟩
    generalize hk : op.toNat = k at hlow hhigh
    obtain rfl : op = BitVec.ofNat 8 k := by simp [← hk]
    interval_cases k <;> exact ⟨_, rfl⟩

/-- A word decodes to some command exactly when it passes the checks: every opcode with a row selects a command. -/
theorem exists_decode_iff (w : CmdWord) : (∃ i, decode w = .ok i) ↔ illegality w = none := by
  constructor
  · rintro ⟨i, hdec⟩
    exact ((decode_ok_iff w i).1 hdec).1
  · intro hlegal
    obtain ⟨r, hrow, -⟩ := (illegality_eq_none_iff w).1 hlegal
    obtain ⟨i, hsel⟩ : ∃ i, select (opField w) (rdField w) (raField w) (rbField w) = some i :=
      Option.ne_none_iff_exists'.1 fun hnone => by simp [(rowOf_eq_none_iff _ _ _ _).2 hnone] at hrow
    exact ⟨i, (decode_ok_iff w i).2 ⟨hlegal, hsel⟩⟩

/-- In a word whose opcode has a row, the checks of R90 in numbers are the checks of the row. -/
theorem legalWord_iff_of_row {w : CmdWord} {r : Row} (hrow : rowOf (opField w) = some r) :
    LegalWord w ↔ zeroField w = 0 ∧ r.all Shape.unusedOk w = true ∧ r.all Shape.pairOk w = true ∧
      r.all Shape.tripleOk w = true := by
  unfold LegalWord
  simp only [rowAll_iff, unusedOk_iff, pairOk_iff, tripleOk_iff, rdField_val, raField_val, rbField_val,
    zeroField_eq_zero, ← opField_toNat]
  obtain ⟨hw, rfl⟩ | ⟨hw, rfl⟩ | ⟨hw, rfl⟩ | ⟨hw, rfl⟩ | ⟨hw, rfl⟩ | ⟨hw, rfl⟩ | ⟨hw, rfl⟩ | ⟨hw, rfl⟩ |
    ⟨hw, rfl⟩ | ⟨hw, rfl⟩ := rowOf_cases hrow <;> simp [hw] <;> tauto

/-- Settles O3: both sides give the opcode a row, and on a row the two ways to write the checks agree. -/
theorem decodeAcceptsExactlyLegalWords : Obligations.DecodeAcceptsExactlyLegalWords := by
  unfold Obligations.DecodeAcceptsExactlyLegalWords
  intro w
  rw [exists_decode_iff, illegality_eq_none_iff]
  constructor
  · rintro ⟨r, hrow, hchecks⟩
    exact (legalWord_iff_of_row hrow).2 hchecks
  · intro hlegal
    have ⟨hop, _⟩ := hlegal
    rw [← opField_toNat] at hop
    obtain ⟨r, hrow⟩ := (rowOf_isSome_iff _).2 hop
    exact ⟨r, hrow, (legalWord_iff_of_row hrow).1 hlegal⟩

/-! ### Encoding and decoding (R81, R90, R96) -/

/-- The encoder writes the word of a row that selects the command, with 0 in every unused field (R83, R96). -/
theorem encode_eq_wordOf (i : Instr) : ∃ op rd ra rb r, encode i = wordOf op rd ra rb ∧
    select op rd ra rb = some i ∧ rowOf op = some r ∧
    r.rd.unusedOk rd = true ∧ r.ra.unusedOk ra = true ∧ r.rb.unusedOk rb = true := by
  cases i <;> exact ⟨_, _, _, _, _, rfl, rfl, rfl, rfl, rfl, rfl⟩

/-- Only one word has 0 in every field its opcode leaves unused and selects `i`: the word of the encoder. -/
theorem encode_of_select {op : BitVec 8} {rd ra rb : RegNum} {r : Row} {i : Instr} (hrow : rowOf op = some r)
    (hsel : select op rd ra rb = some i) (hd : r.rd.unusedOk rd = true) (ha : r.ra.unusedOk ra = true)
    (hb : r.rb.unusedOk rb = true) : encode i = wordOf op rd ra rb := by
  rw [unusedOk_iff] at hd ha hb
  obtain ⟨rfl, rfl⟩ | ⟨rfl, rfl⟩ | ⟨rfl, rfl⟩ | ⟨rfl, rfl⟩ | ⟨rfl, rfl⟩ | ⟨rfl, rfl⟩ | ⟨rfl, rfl⟩ | ⟨rfl, rfl⟩ |
    ⟨rfl, rfl⟩ | ⟨rfl, rfl⟩ := select_cases hsel
  all_goals
    obtain rfl := Option.some.inj hrow
    simp_all [encode]

/-- The range checks of a row are those of the command its opcode selects (R83, R90). -/
theorem wf_iff_of_select {op : BitVec 8} {rd ra rb : RegNum} {r : Row} {i : Instr} (hrow : rowOf op = some r)
    (hsel : select op rd ra rb = some i) : i.wf = true ↔
      (r.rd.pairOk rd = true ∧ r.ra.pairOk ra = true ∧ r.rb.pairOk rb = true) ∧
      (r.rd.tripleOk rd = true ∧ r.ra.tripleOk ra = true ∧ r.rb.tripleOk rb = true) := by
  obtain ⟨rfl, rfl⟩ | ⟨rfl, rfl⟩ | ⟨rfl, rfl⟩ | ⟨rfl, rfl⟩ | ⟨rfl, rfl⟩ | ⟨rfl, rfl⟩ | ⟨rfl, rfl⟩ | ⟨rfl, rfl⟩ |
    ⟨rfl, rfl⟩ | ⟨rfl, rfl⟩ := select_cases hsel
  all_goals
    obtain rfl := Option.some.inj hrow
    simp [Instr.wf, Shape.pairOk, Shape.tripleOk, and_assoc]

/-- Settles O1: the fields of the encoder's word are the ones it was made of, they select the command, and the range checks
are the command's own. -/
theorem decodeOfEncode : Obligations.DecodeOfEncode := by
  unfold Obligations.DecodeOfEncode
  intro i hwf
  obtain ⟨op, rd, ra, rb, r, hword, hsel, hrow, hunused⟩ := encode_eq_wordOf i
  obtain ⟨hpair, htriple⟩ := (wf_iff_of_select hrow hsel).1 hwf
  rw [hword, decode_ok_iff, illegality_eq_none_iff]
  simp only [rowAll_iff, opField_wordOf, rdField_wordOf, raField_wordOf, rbField_wordOf, zeroField_wordOf, true_and]
  exact ⟨⟨r, hrow, hunused, hpair, htriple⟩, hsel⟩

/-- Settles O2: the word is put together from its own fields, and the command they select is encoded by them. -/
theorem encodeOfDecode : Obligations.EncodeOfDecode := by
  unfold Obligations.EncodeOfDecode
  intro w i hdec
  obtain ⟨hlegal, hsel⟩ := (decode_ok_iff w i).1 hdec
  obtain ⟨r, hrow, hzero, hunused, -, -⟩ := (illegality_eq_none_iff w).1 hlegal
  obtain ⟨hd, ha, hb⟩ := (rowAll_iff r _ w).1 hunused
  exact ⟨(encode_of_select hrow hsel hd ha hb).trans (wordOf_fields hzero), wf_of_decode hdec⟩

/-- Settles O4, by running the decoder on the ten words. -/
theorem writtenWordsDecode : Obligations.WrittenWordsDecode := by
  unfold Obligations.WrittenWordsDecode
  decide

/-! ### Illegal words (R87, R88, R233) -/

/-- Settles O7: a word that is not legal decodes to no command, so executing it raises ILLEGAL_CMD on the state that has
accepted it. -/
theorem illegalWordRaisesIllegalCmd : Obligations.IllegalWordRaisesIllegalCmd := by
  unfold Obligations.IllegalWordRaisesIllegalCmd
  intro s w rest h herr hillegal
  obtain ⟨i, hdec, -⟩ | ⟨-, hexec⟩ := execute_cases w ((answered s rest .written).setLastCmd w)
  · exact absurd ((decodeAcceptsExactlyLegalWords w).1 ⟨i, hdec⟩) hillegal
  · obtain ⟨hcode, hregs, hflags, hlast, haround⟩ :=
      raise_onlyErrBecomes ((answered s rest .written).setLastCmd w) .illegalCmd
    exact ⟨_, (step_cmdWrite h herr).trans hexec, hcode, hlast, hregs, hflags, answeredWith_of_sameAround haround⟩

end Sys2Proof.Proofs

/-! PROOF. The big-integer statements (spec/40_bigint.md): what each internal function computes, the limb-by-limb view
of `add` and `mul`, and the two integer commands. -/

namespace Sys2Proof.Proofs

open Machine Laws

/-! ### Numbers in base B: limbs, columns and carries (R13, R114, R120)

Column sums of any size make a number; carrying from column to column brings each to its digit. `add` and `mul` are the
two uses. -/

/-- The digits of `x` in base `B` add up to what they are the digits of. -/
theorem sum_digits_mul_pow (x B n : Nat) : ∑ i ∈ Finset.range n, x / B ^ i % B * B ^ i = x % B ^ n := by
  induction n with
  | zero => simp [Nat.mod_one]
  | succ n ih => rw [Finset.sum_range_succ, ih, Nat.mod_pow_succ, mul_comm (x / B ^ n % B)]

/-- A multiple of a higher power of the base leaves digit `k` as it is. -/
theorem digit_add_mul_pow {B k m : Nat} (hB : 0 < B) (hkm : k < m) (x a : Nat) :
    (x + a * B ^ m) / B ^ k % B = x / B ^ k % B := by
  obtain ⟨d, rfl⟩ := Nat.exists_eq_add_of_lt hkm
  have hfactor : a * B ^ (k + d + 1) = B ^ k * (B * (a * B ^ d)) := by ring
  rw [hfactor, Nat.add_mul_div_left _ _ (Nat.pow_pos hB), Nat.add_mul_mod_self_left]

section Carries

/-! A column `col k` per digit, and `carry k` the carry into it. -/

variable {B : Nat} {col carry : Nat → Nat} (hB : 0 < B) (hzero : carry 0 = 0)
  (hsucc : ∀ k, carry (k + 1) = (col k + carry k) / B)

include hB hzero hsucc

/-- The carry into column `k` is what the columns below it amount to beyond `B ^ k`. -/
theorem sum_columns_div_pow (k : Nat) : (∑ i ∈ Finset.range k, col i * B ^ i) / B ^ k = carry k := by
  induction k with
  | zero => simp [hzero]
  | succ k ih =>
    rw [Finset.sum_range_succ, pow_succ, ← Nat.div_div_eq_div_mul, Nat.add_mul_div_right _ _ (Nat.pow_pos hB), ih,
      hsucc, Nat.add_comm]

/-- Digit `k` of the sum of all columns is column `k` with the carry into it, less what is carried on. -/
theorem sum_columns_digit {k n : Nat} (hkn : k < n) :
    (∑ i ∈ Finset.range n, col i * B ^ i) / B ^ k % B = (col k + carry k) % B := by
  induction n, hkn using Nat.le_induction with
  | base =>
    rw [Finset.sum_range_succ, Nat.add_mul_div_right _ _ (Nat.pow_pos hB), sum_columns_div_pow hB hzero hsucc,
      Nat.add_comm]
  | succ n hkn ih => rw [Finset.sum_range_succ, digit_add_mul_pow hB hkn, ih]

end Carries

/-- A word is the sum of its 8 limbs, each at its place (R13). -/
theorem sum_limbs (v : Word) : ∑ i ∈ Finset.range 8, (limb v i).toNat * (2 ^ 32) ^ i = v.toNat := by
  simp only [limb_toNat, pow_mul]
  rw [sum_digits_mul_pow]
  exact Nat.mod_eq_of_lt (v.isLt.trans_eq (pow_mul 2 32 8))

/-! ### `isZero` and `compare` (R111, R112) -/

theorem isZero_iff_getLsbD {n : Nat} (v : BitVec n) : isZero v = true ↔ ∀ i < n, v.getLsbD i = false := by
  rw [isZero, decide_eq_true_iff]
  constructor
  · rintro rfl i _
    exact BitVec.getLsbD_zero
  · intro hbits
    refine BitVec.eq_of_getLsbD_eq fun i hi => ?_
    rw [hbits i hi, BitVec.getLsbD_zero]

/-- Settles O41: each of the three relations between `u` and `v` selects its branch of `compare`. -/
theorem compareAndIsZero : Obligations.CompareAndIsZero := by
  unfold Obligations.CompareAndIsZero
  refine ⟨fun _ => isZero_iff_getLsbD, fun u v => ⟨fun hlt => if_pos hlt, ?_, fun hgt => ?_⟩⟩
  · rintro rfl
    simp [compareUnsigned]
  · rw [compareUnsigned, if_neg hgt.not_gt, if_neg hgt.ne']

/-! ### `subtractWithBorrow`, `rightShiftOne` and `mostSignificantBitLength` (R115 to R117) -/

/-- Settles O38: with a borrow the difference has wrapped around once, without one it is exact. -/
theorem subtractReportsBorrow : Obligations.SubtractReportsBorrow := by
  unfold Obligations.SubtractReportsBorrow
  intro u v
  refine ⟨?_, decide_eq_true_iff⟩
  have hu := u.isLt
  have hv := v.isLt
  rw [subtractWithBorrow, BitVec.toNat_sub]
  by_cases hlt : u.toNat < v.toNat
  · rw [decide_eq_true hlt, Bool.toNat_true]
    omega
  · rw [decide_eq_false hlt, Bool.toNat_false]
    omega

/-- Settles O39. -/
theorem rightShiftHalves : Obligations.RightShiftHalves := by
  unfold Obligations.RightShiftHalves
  intro n v
  have hbits (i : Nat) : (rightShiftOne v).getLsbD i = v.getLsbD (i + 1) := by
    rw [rightShiftOne, BitVec.getLsbD_ushiftRight, Nat.add_comm]
  refine ⟨?_, hbits, ?_⟩
  · rw [rightShiftOne, BitVec.toNat_ushiftRight, Nat.shiftRight_eq_div_pow, pow_one]
  · rw [hbits]
    exact BitVec.getLsbD_of_ge v _ (by omega)

theorem mostSignificantBitLength_zero (n : Nat) : mostSignificantBitLength 0#n = 0 := by
  simp [mostSignificantBitLength]

theorem mostSignificantBitLength_of_ne_zero {n : Nat} {v : BitVec n} (h : v.toNat ≠ 0) :
    mostSignificantBitLength v = Nat.log2 v.toNat + 1 := if_neg h

/-- Settles O40: the binary logarithm is the index of the highest set bit, and the value fits its width. -/
theorem bitLengthBoundsTheValue : Obligations.BitLengthBoundsTheValue := by
  unfold Obligations.BitLengthBoundsTheValue
  intro n v
  by_cases hv : v = 0#n
  · subst hv
    simp [mostSignificantBitLength_zero]
  · have hne : v.toNat ≠ 0 := by simpa [← BitVec.toNat_inj] using hv
    have hlow : 2 ^ Nat.log2 v.toNat ≤ v.toNat := Nat.log2_self_le hne
    have hwidth : Nat.log2 v.toNat < n := (Nat.log2_lt hne).2 v.isLt
    rw [mostSignificantBitLength_of_ne_zero hne]
    exact ⟨by simp [hv], fun _ => ⟨by omega, hwidth, hlow, Nat.lt_log2_self⟩⟩

/-! ### `add` and `mul`, limb by limb (R114, R120) -/

theorem add_sum_toNat (u v : Word) : (add u v).1.toNat = (u.toNat + v.toNat) % 2 ^ 256 := by
  rw [← add_spec, Nat.mul_add_mod_self_right, Nat.mod_eq_of_lt (add u v).1.isLt]

theorem add_carry (u v : Word) : (add u v).2 = decide (2 ^ 256 ≤ u.toNat + v.toNat) := by
  have hspec := add_spec u v
  have hsum := (add u v).1.isLt
  cases hc : (add u v).2 <;> rw [hc] at hspec
  · rw [Bool.toNat_false] at hspec
    exact (decide_eq_false (by omega)).symm
  · rw [Bool.toNat_true] at hspec
    exact (decide_eq_true (by omega)).symm

/-- The columns of an addition: the limbs of both operands at each place. -/
theorem sum_addColumns (u v : Word) :
    ∑ i ∈ Finset.range 8, ((limb u i).toNat + (limb v i).toNat) * (2 ^ 32) ^ i = u.toNat + v.toNat := by
  simp only [add_mul, Finset.sum_add_distrib, sum_limbs]

/-- Settles O37: the limbs and the carry out of the sum are the digits and the last carry of its 8 columns. -/
theorem addCarriesThroughAllLimbs : Obligations.AddCarriesThroughAllLimbs := by
  unfold Obligations.AddCarriesThroughAllLimbs
  intro u v
  have hB : 0 < 2 ^ 32 := by decide
  have hpow : (2 : Nat) ^ 256 = (2 ^ 32) ^ 8 := pow_mul 2 32 8
  have hspec := add_spec u v
  refine ⟨hspec.symm, fun j hj => ?_, ?_⟩
  · rw [limb_toNat, pow_mul, ← digit_add_mul_pow hB hj _ (add u v).2.toNat, ← hpow, Nat.add_comm, hspec,
      ← sum_addColumns]
    exact sum_columns_digit hB rfl (fun _ => rfl) hj
  · have hcarry := sum_columns_div_pow (carry := addCarryInto u v) hB rfl (fun _ => rfl) 8
    rw [← hcarry, sum_addColumns, ← hspec, ← hpow, Nat.mul_comm, Nat.mul_add_div (by decide),
      Nat.div_eq_of_lt (add u v).1.isLt, Nat.add_zero]

theorem mulColumn_eq_sum (u v : Word) (k : Nat) : mulColumn u v k = ∑ i ∈ Finset.range 8,
    if i ≤ k ∧ k - i < 8 then (limb u i).toNat * (limb v (k - i)).toNat else 0 := rfl

/-- The products with limb `i` of `u` stand in the columns `i` to `i + 7`, and make `v` times that limb. -/
theorem sum_mulColumn_row (u v : Word) {i : Nat} (hi : i < 8) :
    ∑ k ∈ Finset.range 16,
      (if i ≤ k ∧ k - i < 8 then (limb u i).toNat * (limb v (k - i)).toNat else 0) * (2 ^ 32) ^ k =
    (limb u i).toNat * (2 ^ 32) ^ i * v.toNat := by
  have hcolumns : (Finset.range 16).filter (fun k => i ≤ k ∧ k - i < 8) = Finset.Ico i (i + 8) := by
    ext k
    simp only [Finset.mem_filter, Finset.mem_range, Finset.mem_Ico]
    omega
  simp only [ite_mul, zero_mul]
  rw [← Finset.sum_filter, hcolumns, Finset.sum_Ico_eq_sum_range, Nat.add_sub_cancel_left, ← sum_limbs v,
    Finset.mul_sum]
  refine Finset.sum_congr rfl fun j _ => ?_
  rw [Nat.add_sub_cancel_left, pow_add]
  ring

/-- The 16 columns of a multiplication make the product: limb by limb of `u`, the products with all limbs of `v`. -/
theorem sum_mulColumns (u v : Word) :
    ∑ k ∈ Finset.range 16, mulColumn u v k * (2 ^ 32) ^ k = u.toNat * v.toNat := by
  simp only [mulColumn_eq_sum, Finset.sum_mul]
  rw [Finset.sum_comm, ← sum_limbs u, Finset.sum_mul]
  exact Finset.sum_congr rfl fun i hi => sum_mulColumn_row u v (Finset.mem_range.1 hi)

/-- Settles O42: the limbs of the product are the digits of its 16 columns. -/
theorem mulColumnsWithCarries : Obligations.MulColumnsWithCarries := by
  unfold Obligations.MulColumnsWithCarries
  intro u v
  refine ⟨mul_toNat u v, rfl, fun k hk => ?_⟩
  rw [mul_toNat, ← sum_mulColumns, pow_mul]
  exact sum_columns_digit (by decide) rfl (fun _ => rfl) hk

/-! ### The two integer commands (R118, R119), and `p256_mod_reduce` after a multiplication (R157) -/

/-- A legal command that is no inversion of 0 completes (R89). -/
theorem exec_of_completes {i : Instr} {s : State} (hwf : i.wf = true) (h0 : invertsZero s.engine i = false) :
    exec i s = .next (s.complete (writesOf s.engine i) (flagsOf s.engine i)) := by
  rw [exec_eq, outcomeOf_of_completes hwf h0]

/-- Settles O20. -/
theorem bigintAddSumAndCarry : Obligations.BigintAddSumAndCarry := by
  unfold Obligations.BigintAddSumAndCarry
  intro rd ra rb s
  refine ⟨_, exec_of_completes rfl rfl, ?sum, ?flags, complete_keepsAllBut s _ _⟩
  case sum => exact (congrArg _ (reg_complete_single s rd _ _)).trans (add_sum_toNat _ _)
  case flags => exact congrArg Flags.ofCarry (add_carry _ _)

/-- Settles O21: the product is exact, and its halves stand in the pair, which no register 15 begins. -/
theorem bigintMultProductPair : Obligations.BigintMultProductPair := by
  unfold Obligations.BigintMultProductPair
  intro rd ra rb s
  constructor
  · intro hrd
    have hwf : (Instr.bigintMult256 rd ra rb).wf = false := decide_eq_false (by omega)
    exact outOfRangeSpecifierFaults _ s hwf
  · intro hrd
    have hwf : (Instr.bigintMult256 rd ra rb).wf = true := decide_eq_true hrd
    refine ⟨_, exec_of_completes hwf rfl, ?low, ?high, rfl, complete_keepsAllBut s _ _⟩
    case low =>
      rw [writesOf, reg_complete_pair_low, lowHalf_toNat, mul_toNat]
      rfl
    case high =>
      rw [writesOf, reg_complete_pair_high, highHalf_toNat, mul_toNat]
      rfl

/-- A pair written with the halves of a 512-bit value reads back as that value (R23). -/
theorem pairInt_complete_pair (s : State) (n : RegNum) (t : DoubleWord) (f : Flags) :
    (s.complete (pairWrites n (lowHalf t) (highHalf t)) f).engine.pairInt n = t := by
  have hlow := reg_complete_pair_low s n (lowHalf t) (highHalf t) f
  have hhigh := reg_complete_pair_high s n (lowHalf t) (highHalf t) f
  rw [State.reg] at hlow hhigh
  rw [← BitVec.toNat_inj, pairInt_toNat, hlow, hhigh, lowHalf_toNat, highHalf_toNat, Nat.div_add_mod']

/-- Reducing the raw product gives the field product of the canonical operands (R157). -/
theorem reduce_mul_eq_mulMod_field (e : Engine) (ra rb : RegNum) :
    reduce (mul (e.single ra) (e.single rb)) = mulMod (e.field ra) (e.field rb) := by
  rw [← BitVec.toNat_inj, reduce_toNat, mul_toNat, mulMod_toNat, field_toNat, field_toNat, ← Nat.mul_mod]
  rfl

/-- Settles O36: the reduction reads back the product the pair holds, whatever `rd` is. -/
theorem multiplyThenReduceIsFieldMultiply : Obligations.MultiplyThenReduceIsFieldMultiply := by
  unfold Obligations.MultiplyThenReduceIsFieldMultiply
  intro rd ra rb n s hn
  refine ⟨_, _, _, exec_of_completes (decide_eq_true hn) rfl, exec_of_completes (decide_eq_true hn) rfl,
    exec_of_completes rfl rfl, ?_⟩
  simp only [writesOf, reg_complete_single, pairInt_complete_pair, reduce_mul_eq_mulMod_field]

end Sys2Proof.Proofs

/-! PROOF. The field statements (spec/41_field.md): the field functions as operations modulo P, the field laws, the
inverse, the fast reduction, and the four field commands with what a command sees of a field-element operand. -/

namespace Sys2Proof.Proofs

open Machine Laws

/-! ### The field functions modulo P (R145, R146, R147, R152) -/

/-- A canonical value is determined by what it is modulo P. -/
theorem eq_of_toNat_mod {a b : Word} {n : Nat} (ha : a.toNat = n % primeP) (hb : b.toNat = n % primeP) : a = b :=
  BitVec.eq_of_toNat_eq (ha.trans hb.symm)

/-- The difference as an integer remainder, which is never negative (R146). -/
theorem subMod_toInt {a b : Word} (ha : a.toNat < primeP) (hb : b.toNat < primeP) :
    ((subMod a b).toNat : Int) = ((a.toNat : Int) - b.toNat) % primeP := by
  have hshift : (a.toNat : Int) + (primeP - b.toNat) = a.toNat - b.toNat + primeP := by ring
  rw [subMod_toNat ha hb, Int.natCast_emod, Nat.cast_add, Nat.cast_sub hb.le, hshift, Int.add_emod_right]

theorem times3_toNat {a : Word} (ha : a.toNat < primeP) : (times3 a).toNat = 3 * a.toNat % primeP := by
  rw [times3, addMod_toNat (doubleMod_lt ha) ha, doubleMod_toNat ha, Nat.mod_add_mod, ← Nat.succ_mul]

theorem times4_toNat {a : Word} (ha : a.toNat < primeP) : (times4 a).toNat = 4 * a.toNat % primeP := by
  rw [times4, doubleMod_toNat (doubleMod_lt ha), doubleMod_toNat ha, Nat.mul_mod_mod, ← mul_assoc]
  rfl

theorem times8_toNat {a : Word} (ha : a.toNat < primeP) : (times8 a).toNat = 8 * a.toNat % primeP := by
  rw [times8, doubleMod_toNat (times4_lt ha), times4_toNat ha, Nat.mul_mod_mod, ← mul_assoc]
  rfl

/-- Doubling is adding a value to itself: both are `2a mod P` (R147). -/
theorem doubleMod_eq_addMod {a : Word} (ha : a.toNat < primeP) : doubleMod a = addMod a a :=
  eq_of_toNat_mod (doubleMod_toNat ha) (by rw [addMod_toNat ha ha, two_mul])

/-- Settles O43. -/
theorem fieldFunctionsAreModular : Obligations.FieldFunctionsAreModular := by
  unfold Obligations.FieldFunctionsAreModular
  intro a b ha hb
  exact ⟨addMod_toNat ha hb, subMod_toInt ha hb, doubleMod_toNat ha, doubleMod_eq_addMod ha, doubleMod_toNat ha,
    times3_toNat ha, times4_toNat ha, times8_toNat ha⟩

/-! ### The inverse (R150) -/

theorem one_toNat_lt_primeP : (1 : Word).toNat < primeP := prime_P.one_lt

theorem val_eq_zero_iff_mod (a : Word) : val a = 0 ↔ a.toNat % primeP = 0 := by
  rw [← val_zero, val_eq_iff_mod]
  rfl

/-- Fermat's little theorem at the prime P: the power `a^(P-2)` is the inverse of `a`. -/
theorem val_mul_val_invMod {a : Word} (h : val a ≠ 0) : val a * val (invMod a) = 1 := by
  have := Fact.mk prime_P
  have hexp : primeP - 2 + 1 = primeP - 1 := by
    have := prime_P.two_le
    omega
  rw [val_invMod, ← pow_succ', hexp, ZMod.pow_card_sub_one_eq_one h]

theorem mulMod_invMod {a : Word} (h : val a ≠ 0) : mulMod a (invMod a) = 1 :=
  (val_inj (mulMod_lt _ _) one_toNat_lt_primeP).1 (by rw [val_mulMod, val_mul_val_invMod h, val_one])

theorem mul_invMod_mod {a : Word} (h : val a ≠ 0) : a.toNat * (invMod a).toNat % primeP = 1 := by
  rw [← mulMod_toNat, mulMod_invMod h]
  rfl

/-- Every inverse modulo P is congruent to `invMod`: inverses in a commutative ring are unique. -/
theorem mod_eq_invMod_of_mul_mod {a : Word} (h : val a ≠ 0) {c : Nat} (hc : a.toNat * c % primeP = 1) :
    c % primeP = (invMod a).toNat := by
  have hleft : (c : ZMod primeP) * val a = 1 := by
    rw [val, mul_comm, ← Nat.cast_mul, ← Nat.cast_one, ZMod.natCast_eq_natCast_iff', hc,
      Nat.mod_eq_of_lt prime_P.one_lt]
  have hcast : (c : ZMod primeP) = val (invMod a) := left_inv_eq_right_inv hleft (val_mul_val_invMod h)
  rw [val, ZMod.natCast_eq_natCast_iff', Nat.mod_eq_of_lt (invMod_lt a)] at hcast
  exact hcast

/-- Settles O44: the inverse is not 0, since its product with `a` is 1. -/
theorem invModIsTheUniqueInverse : Obligations.InvModIsTheUniqueInverse := by
  unfold Obligations.InvModIsTheUniqueInverse
  intro a hpos ha
  have hval : val a ≠ 0 := by
    rw [Ne, val_eq_zero_iff_mod, Nat.mod_eq_of_lt ha]
    exact hpos.ne'
  have hinv := mul_invMod_mod hval
  refine ⟨?pos, Nat.le_sub_one_of_lt (invMod_lt a), hinv, ?unique, invMod_toNat a⟩
  case pos =>
    refine Nat.one_le_iff_ne_zero.2 fun hzero => ?_
    rw [hzero, mul_zero, Nat.zero_mod] at hinv
    exact absurd hinv zero_ne_one
  case unique =>
    intro c _ hc hprod
    rw [← mod_eq_invMod_of_mul_mod hval hprod, Nat.mod_eq_of_lt (Nat.lt_of_le_sub_one primeP_pos hc)]

/-! ### The field laws (R159)

Each law of the functions is the law of the ring of integers modulo P, since canonical values with one residue are one
value (R151). -/

theorem mulMod_comm (a b : Word) : mulMod a b = mulMod b a :=
  (val_inj (mulMod_lt _ _) (mulMod_lt _ _)).1 (by rw [val_mulMod, val_mulMod, mul_comm])

theorem mulMod_assoc (a b c : Word) : mulMod (mulMod a b) c = mulMod a (mulMod b c) :=
  (val_inj (mulMod_lt _ _) (mulMod_lt _ _)).1 (by simp only [val_mulMod, mul_assoc])

theorem mulMod_zero (a : Word) : mulMod a 0 = 0 :=
  (val_inj (mulMod_lt _ _) zero_toNat_lt_primeP).1 (by rw [val_mulMod, val_zero, mul_zero])

section CanonicalArguments

variable {a b c : Word} (ha : a.toNat < primeP) (hb : b.toNat < primeP) (hc : c.toNat < primeP)

include ha

theorem addMod_zero : addMod a 0 = a :=
  (val_inj (addMod_lt ha zero_toNat_lt_primeP) ha).1
    (by rw [val_addMod ha zero_toNat_lt_primeP, val_zero, add_zero])

theorem mulMod_one : mulMod a 1 = a :=
  (val_inj (mulMod_lt _ _) ha).1 (by rw [val_mulMod, val_one, mul_one])

theorem subMod_self : subMod a a = 0 :=
  (val_inj (subMod_lt ha ha) zero_toNat_lt_primeP).1 (by rw [val_subMod ha ha, sub_self, val_zero])

theorem val_ne_zero (h : a ≠ 0) : val a ≠ 0 := mt (val_eq_zero ha).1 h

include hb

theorem addMod_comm : addMod a b = addMod b a :=
  (val_inj (addMod_lt ha hb) (addMod_lt hb ha)).1 (by rw [val_addMod ha hb, val_addMod hb ha, add_comm])

/-- Subtraction is addition of the negation. -/
theorem subMod_eq_addMod_neg : subMod a b = addMod a (subMod 0 b) := by
  have hneg := subMod_lt zero_toNat_lt_primeP hb
  rw [← val_inj (subMod_lt ha hb) (addMod_lt ha hneg), val_subMod ha hb, val_addMod ha hneg,
    val_subMod zero_toNat_lt_primeP hb, val_zero, zero_sub, sub_eq_add_neg]

/-- No zero divisors: P is prime. -/
theorem eq_zero_or_eq_zero_of_mulMod (h : mulMod a b = 0) : a = 0 ∨ b = 0 := by
  have := Fact.mk prime_P
  have hprod : val a * val b = 0 := by rw [← val_mulMod, h, val_zero]
  exact (mul_eq_zero.1 hprod).imp (val_eq_zero ha).1 (val_eq_zero hb).1

include hc

theorem addMod_assoc : addMod (addMod a b) c = addMod a (addMod b c) := by
  have hab := addMod_lt ha hb
  have hbc := addMod_lt hb hc
  rw [← val_inj (addMod_lt hab hc) (addMod_lt ha hbc), val_addMod hab hc, val_addMod ha hb, val_addMod ha hbc,
    val_addMod hb hc, add_assoc]

omit ha in
theorem mulMod_addMod (a : Word) : mulMod a (addMod b c) = addMod (mulMod a b) (mulMod a c) := by
  have hprods := mulMod_lt a
  rw [← val_inj (hprods _) (addMod_lt (hprods _) (hprods _)), val_mulMod, val_addMod hb hc,
    val_addMod (hprods _) (hprods _), val_mulMod, val_mulMod, mul_add]

end CanonicalArguments

/-- Settles O57. -/
theorem fieldLaws : Obligations.FieldLaws := by
  unfold Obligations.FieldLaws
  intro a b c ha hb hc
  exact ⟨addMod_comm ha hb, addMod_assoc ha hb hc, mulMod_comm a b, mulMod_assoc a b c, mulMod_addMod hb hc a,
    addMod_zero ha, mulMod_one ha, mulMod_zero a, subMod_eq_addMod_neg ha hb, subMod_self ha,
    fun h => ⟨mulMod_invMod (val_ne_zero ha h), invMod_lt a⟩, eq_zero_or_eq_zero_of_mulMod ha hb,
    addMod_lt ha hb, subMod_lt ha hb, doubleMod_lt ha, mulMod_lt a b, mulMod_lt a a⟩

/-! ### The fast reduction (R154) -/

theorem wideLimb_toNat (t : DoubleWord) (k : Nat) : wideLimb t k = t.toNat / (2 ^ 32) ^ k % 2 ^ 32 := by
  rw [wideLimb, BitVec.extractLsb'_toNat, Nat.shiftRight_eq_div_pow, pow_mul]

/-- A 512-bit value is the sum of its 16 limbs, each at its place (R13). -/
theorem sum_wideLimbs (t : DoubleWord) : ∑ k ∈ Finset.range 16, wideLimb t k * (2 ^ 32) ^ k = t.toNat := by
  simp only [wideLimb_toNat]
  rw [sum_digits_mul_pow]
  exact Nat.mod_eq_of_lt (t.isLt.trans_eq (pow_mul 2 32 16))

/-- How many times P the folding takes from the value. With `B = 2^32`, P is `B^8 - B^7 + B^6 + B^3 - 1`, and the
coefficient of limb k is the quotient of `B^k` by that polynomial. -/
def foldQuotient (t : DoubleWord) : Int :=
  let B : Int := 2 ^ 32
  wideLimb t 8 + wideLimb t 9 * (1 + B) + wideLimb t 10 * (B + B ^ 2) + wideLimb t 11 * (-1 + B ^ 2 + B ^ 3) +
    wideLimb t 12 * (-1 - B + B ^ 3 + B ^ 4) + wideLimb t 13 * (-1 - B - B ^ 2 + B ^ 4 + B ^ 5) +
    wideLimb t 14 * (-1 - B - B ^ 2 - B ^ 3 + B ^ 5 + B ^ 6) +
    wideLimb t 15 * (-B - B ^ 2 - B ^ 3 - B ^ 4 + B ^ 6 + B ^ 7)

/-- Folding takes a multiple of P from the value (R154). -/
theorem toNat_eq_foldedSum_add (t : DoubleWord) : (t.toNat : Int) = foldedSum t + primeP * foldQuotient t := by
  rw [← sum_wideLimbs t]
  simp only [Finset.sum_range_succ, Finset.sum_range_zero, foldedSum, ofLimbs, foldQuotient, primeP]
  push_cast
  ring

theorem foldedSum_emod (t : DoubleWord) : foldedSum t % primeP = (t.toNat : Int) % primeP := by
  rw [toNat_eq_foldedSum_add, Int.add_mul_emod_self_left]

/-- Settles O45: the folded sum and the value have one residue modulo P. -/
theorem fastReductionIsReduction : Obligations.FastReductionIsReduction := by
  unfold Obligations.FastReductionIsReduction
  intro t
  refine ⟨?_, reduce_toNat t⟩
  rw [fastReduce, foldedSum_emod, ← Int.natCast_emod, BitVec.ofInt_natCast, reduce]

/-- Settles O46: the sum is linear in the limbs, and `omega` knows the bound each limb has from its width. -/
theorem foldedSumWithinSixP : Obligations.FoldedSumWithinSixP := by
  unfold Obligations.FoldedSumWithinSixP
  intro t
  simp only [foldedSum, ofLimbs, wideLimb, primeP]
  omega

/-- A value that folds to more than 5P: its limbs 0 to 8, 14 and 15 are all ones and its others 0 (log entry 15). -/
def foldsAboveFiveP : DoubleWord := 0xFFFFFFFFFFFFFFFF <<< 448 ||| BitVec.setWidth 512 (BitVec.allOnes 288)

/-- Refutes O47, by the value of log entry 15. -/
theorem not_foldedSumBelowFiveP : ¬ Obligations.FoldedSumBelowFiveP := by
  unfold Obligations.FoldedSumBelowFiveP
  intro h
  have habove : ¬ foldedSum foldsAboveFiveP < 5 * (primeP : Int) := by decide +kernel
  exact habove (h foldsAboveFiveP).2

/-! ### The four field commands (R155 to R158) -/

/-- NC of two field-element registers (R30). -/
theorem ncSingle_or (e : Engine) (ra rb : RegNum) :
    (e.ncSingle ra || e.ncSingle rb) = decide (primeP ≤ (e.reg ra).toNat ∨ primeP ≤ (e.reg rb).toNat) := by
  rw [ncSingle_eq, ncSingle_eq, Bool.decide_or]

/-- Settles O22: the pair is reduced, unless its base is out of range. -/
theorem modReducePairModuloP : Obligations.ModReducePairModuloP := by
  unfold Obligations.ModReducePairModuloP
  intro rd ra s
  constructor
  · intro hra
    have hwf : (Instr.p256ModReduce rd ra).wf = false := decide_eq_false (by omega)
    exact outOfRangeSpecifierFaults _ s hwf
  · intro hra
    have hwf : (Instr.p256ModReduce rd ra).wf = true := decide_eq_true hra
    refine ⟨_, exec_of_completes hwf rfl, ?_, rfl, complete_keepsAllBut s _ _⟩
    rw [writesOf, reg_complete_single, reduce_toNat, pairInt_toNat]
    rfl

/-- Settles O23. -/
theorem fieldAddSumModuloP : Obligations.FieldAddSumModuloP := by
  unfold Obligations.FieldAddSumModuloP
  intro rd ra rb s
  refine ⟨_, exec_of_completes rfl rfl, ?sum, ?flags, complete_keepsAllBut s _ _⟩
  case sum =>
    rw [writesOf, reg_complete_single, addMod_toNat (field_lt _ _) (field_lt _ _), field_toNat, field_toNat,
      ← Nat.add_mod]
    rfl
  case flags => exact congrArg Flags.ofField (ncSingle_or s.engine ra rb)

/-- Settles O24. -/
theorem fieldMultProductModuloP : Obligations.FieldMultProductModuloP := by
  unfold Obligations.FieldMultProductModuloP
  intro rd ra rb s
  refine ⟨_, exec_of_completes rfl rfl, ?product, ?flags, complete_keepsAllBut s _ _⟩
  case product =>
    rw [writesOf, reg_complete_single, mulMod_toNat, field_toNat, field_toNat, ← Nat.mul_mod]
    rfl
  case flags => exact congrArg Flags.ofField (ncSingle_or s.engine ra rb)

/-- The inverse of the canonical operand is an inverse of the operand itself (R158). -/
theorem reg_mul_invMod_field_mod {e : Engine} {n : RegNum} (h : (e.reg n).toNat % primeP ≠ 0) :
    (e.reg n).toNat * (invMod (e.field n)).toNat % primeP = 1 := by
  have hval : val (e.field n) ≠ 0 := by rwa [val_field, Ne, val_eq_zero_iff_mod]
  rw [← mul_invMod_mod hval, field_toNat, Nat.mod_mul_mod]

/-- Settles O25: whether the operand is 0 modulo P decides which way the command ends. -/
theorem fieldInvertInverseOrFault : Obligations.FieldInvertInverseOrFault := by
  unfold Obligations.FieldInvertInverseOrFault
  intro rd ra s
  have hzero : invertsZero s.engine (.p256FieldInvert rd ra) = true ↔ (s.reg ra).toNat % primeP = 0 := by
    rw [invertsZero, isZero_iff_toNat, field_toNat, State.reg]
  constructor
  · intro hne
    refine ⟨_, exec_of_completes rfl (Bool.eq_false_iff.2 (mt hzero.1 hne)), ?lt, ?inverse, ?flags,
      complete_keepsAllBut s _ _⟩
    case lt => rw [writesOf, reg_complete_single]; exact invMod_lt _
    case inverse => rw [writesOf, reg_complete_single]; exact reg_mul_invMod_field_mod hne
    case flags => exact congrArg Flags.ofField (ncSingle_eq s.engine ra)
  · intro heq
    refine ⟨_, exec_eq _ s, ?_⟩
    rw [outcomeOf_of_invertsZero rfl (hzero.2 heq)]
    exact raise_onlyErrBecomes s .invZero

/-! ### A field-element operand is seen modulo P only (R144) -/

/-- Registers with one residue are one field element. -/
theorem field_eq_of_mod {e e' : Engine} {n : RegNum} (h : (e.reg n).toNat % primeP = (e'.reg n).toNat % primeP) :
    e.field n = e'.field n :=
  eq_of_toNat_mod ((field_toNat e n).trans h) (field_toNat e' n)

/-- Engines that agree on a command's plain operands and on its field elements produce the same writes and the same C, V
and INF, and invert 0 together. -/
theorem result_congr_field {e e' : Engine} {i : Instr} (hplain : ∀ n ∈ i.plainSources, e.reg n = e'.reg n)
    (hfield : ∀ n ∈ i.fieldSources, e.field n = e'.field n) :
    writesOf e i = writesOf e' i ∧ { flagsOf e i with nc := false } = { flagsOf e' i with nc := false } ∧
      invertsZero e i = invertsZero e' i := by
  cases i <;> simp only [Instr.plainSources, Instr.fieldSources, List.forall_mem_cons] at hplain hfield
  case bigintAdd256 rd ra rb | bigintMult256 rd ra rb =>
    obtain ⟨ha, hb, -⟩ := hplain
    simp only [writesOf, flagsOf, invertsZero, Engine.single, ha, hb, and_self]
  case p256ModReduce rd ra =>
    obtain ⟨ha, ha1, -⟩ := hplain
    simp only [writesOf, flagsOf, invertsZero, pairInt_congr ha ha1, and_self]
  case p256FieldAdd rd ra rb | p256FieldMult rd ra rb =>
    obtain ⟨ha, hb, -⟩ := hfield
    simp only [writesOf, flagsOf, invertsZero, Flags.ofField, ha, hb, and_self]
  case p256FieldInvert rd ra =>
    obtain ⟨ha, -⟩ := hfield
    simp only [writesOf, flagsOf, invertsZero, Flags.ofField, ha, and_self]
  case p256PointDouble rd ra =>
    obtain ⟨ha, ha1, ha2, -⟩ := hfield
    simp only [writesOf, flagsOf, invertsZero, Flags.ofPoint, Engine.jacobian, ha, ha1, ha2, and_self]
  case p256PointAddMixed rd ra rb =>
    obtain ⟨ha, ha1, ha2, hb, hb1, hb2, -⟩ := hfield
    simp only [writesOf, flagsOf, invertsZero, Flags.ofPoint, Engine.jacobian, ha, ha1, ha2, hb, hb1, hb2, and_self]
  case p256ScalarMultNaf rd ra rb =>
    obtain ⟨ha, -⟩ := hplain
    obtain ⟨hb, hb1, -⟩ := hfield
    simp only [writesOf, flagsOf, invertsZero, Flags.ofPoint, Engine.single, Engine.affine, ha, hb, hb1, and_self]
  case p256PointValidate ra =>
    obtain ⟨ha, ha1, -⟩ := hfield
    simp only [writesOf, flagsOf, invertsZero, Flags.ofVerdict, Engine.affine, ha, ha1, and_self]

/-- NC reports a field-element operand that is not canonical (R30). -/
theorem flagsOf_nc_iff (e : Engine) (i : Instr) :
    (flagsOf e i).nc = true ↔ ∃ n ∈ i.fieldSources, primeP ≤ (e.reg n).toNat := by
  cases i <;>
    simp [flagsOf, Flags.ofCarry, Flags.none, Flags.ofField, Flags.ofPoint, Flags.ofVerdict, Instr.fieldSources,
      Engine.ncPair, Engine.ncTriple, ncSingle_eq, or_assoc]

/-- However a command ends, a register that is no destination keeps its value (R36, R233). -/
theorem outcomeOf_reg_of_notMem {i : Instr} (s : State) {n : RegNum} (hn : n ∉ i.dests) :
    (outcomeOf i s).reg n = s.reg n := by
  obtain ⟨-, h⟩ | ⟨-, -, h⟩ | ⟨-, -, h⟩ := outcomeOf_cases i s <;> rw [h]
  · rfl
  · rfl
  · exact s.engine.reg_writeAll_of_notMem _ n (by rwa [writesOf_regs])

/-- Settles O34: the operands of both machines are the same field elements, so both end the same way and write the same
values; NC alone looks at the registers. -/
theorem fieldOperandsMatterModuloP : Obligations.FieldOperandsMatterModuloP := by
  unfold Obligations.FieldOperandsMatterModuloP
  intro i s s' t t' he he' hplain hmod ht ht'
  obtain ⟨hwrites, hflags, hzero⟩ := result_congr_field (e := s.engine) (e' := s'.engine) hplain
    fun n hn => field_eq_of_mod (hmod n hn)
  obtain ⟨hc, hv, hinf, -⟩ := Flags.mk.inj hflags
  obtain rfl := (exec_next_iff i s t).1 ht
  obtain rfl := (exec_next_iff i s' t').1 ht'
  refine and_assoc.1 ⟨?_, fun n hn => outcomeOf_reg_of_notMem s hn⟩
  obtain ⟨hwf, h⟩ | ⟨hwf, h0, h⟩ | ⟨hwf, h0, h⟩ := outcomeOf_cases i s
  · rw [h, outcomeOf_of_not_wf s' hwf]
    exact ⟨rfl, fun herr => absurd herr (raise_err_ne_zero s _)⟩
  · rw [h, outcomeOf_of_invertsZero hwf (hzero ▸ h0)]
    exact ⟨rfl, fun herr => absurd herr (raise_err_ne_zero s _)⟩
  · rw [h, outcomeOf_of_completes hwf (hzero ▸ h0), ← hwrites]
    refine ⟨by simp [he, he'], fun _ => ⟨List.map_congr_left fun n hn => ?_, hc, hv, hinf,
      flagsOf_nc_iff s.engine i⟩⟩
    exact reg_writeAll_congr s.engine s'.engine (writesOf s.engine i) (by rwa [writesOf_regs])

end Sys2Proof.Proofs

/-! PROOF. The point statements (spec/42_point.md): the cases of doubling and mixed addition, the two point commands,
and what both compute in the group of the curve. -/

namespace Sys2Proof.Proofs

open Machine Laws

/-! ### The cases of a doubling and of a mixed addition (R184, R187) -/

theorem isInfinity_iff (p : Jacobian) : p.isInfinity = true ↔ p.z = 0 := decide_eq_true_iff

theorem normal_of_infinite {p : Jacobian} (h : p.isInfinity = true) : p.normal = .infinity := if_pos h

theorem normal_of_finite {p : Jacobian} (h : ¬ p.isInfinity = true) : p.normal = p := if_neg h

theorem pointDouble_of_infinite {p : Jacobian} (h : p.isInfinity = true) : pointDouble p = .infinity := if_pos h

theorem pointDouble_of_finite {p : Jacobian} (h : ¬ p.isInfinity = true) :
    pointDouble p = (doubleFormulas p).normal := if_neg h

/-- Z3 of a doubling is 0 modulo P exactly when the result is infinity (R184). -/
theorem doubleFormulas_isInfinity_iff (p : Jacobian) :
    (doubleFormulas p).isInfinity = true ↔ 2 * (val p.y * val p.z) = 0 := by
  rw [isInfinity_iff_val (doubleFormulas_lt p).2.2, ← val_mulMod, ← val_doubleMod (mulMod_lt _ _)]
  rfl

/-- A doubling is at infinity when the operand is, or when Z3 is 0 modulo P (R184). -/
theorem pointDouble_eq_infinity {p : Jacobian} (hp : IsCanonicalTriple p)
    (h : val p.z = 0 ∨ 2 * (val p.y * val p.z) = 0) : pointDouble p = .infinity := by
  by_cases hinf : p.isInfinity = true
  · exact pointDouble_of_infinite hinf
  · have hz3 := h.resolve_left (mt (isInfinity_iff_val hp.2.2).2 hinf)
    rw [pointDouble_of_finite hinf, normal_of_infinite ((doubleFormulas_isInfinity_iff p).2 hz3)]

/-- Otherwise it is what the formulas give. -/
theorem pointDouble_eq_formulas {p : Jacobian} (hp : IsCanonicalTriple p) (hz : val p.z ≠ 0)
    (hz3 : 2 * (val p.y * val p.z) ≠ 0) : pointDouble p = doubleFormulas p := by
  rw [pointDouble_of_finite (mt (isInfinity_iff_val hp.2.2).1 hz),
    normal_of_finite (mt (doubleFormulas_isInfinity_iff p).1 hz3)]

section MixedAdditionCases

variable {p q : Jacobian}

/-- Case 1 of R187. -/
theorem pointAddMixed_of_infinite_right (hq : q.isInfinity = true) : pointAddMixed p q = p.normal := if_pos hq

/-- Case 2 of R187. -/
theorem pointAddMixed_of_infinite_left (hq : ¬ q.isInfinity = true) (hp : p.isInfinity = true) :
    pointAddMixed p q = q.normal := (if_neg hq).trans (if_pos hp)

variable (hq : ¬ q.isInfinity = true) (hp : ¬ p.isInfinity = true)

include hq hp

/-- Cases 3 to 5 of R187, for two finite points. -/
theorem pointAddMixed_of_finite : pointAddMixed p q =
    if isZero (xDifference p q) && isZero (yDifference p q) then pointDouble q
    else if isZero (xDifference p q) then .infinity
    else generalAdd p (xDifference p q) (yDifference p q) := (if_neg hq).trans (if_neg hp)

/-- Case 3 of R187. -/
theorem pointAddMixed_of_same (hc : isZero (xDifference p q) = true) (hd : isZero (yDifference p q) = true) :
    pointAddMixed p q = pointDouble q := by
  rw [pointAddMixed_of_finite hq hp, hc, hd]
  rfl

/-- Case 4 of R187. -/
theorem pointAddMixed_of_opposite (hc : isZero (xDifference p q) = true) (hd : ¬ isZero (yDifference p q) = true) :
    pointAddMixed p q = .infinity := by
  rw [pointAddMixed_of_finite hq hp, hc, Bool.eq_false_iff.2 hd]
  rfl

/-- Case 5 of R187. -/
theorem pointAddMixed_of_general (hc : ¬ isZero (xDifference p q) = true) :
    pointAddMixed p q = generalAdd p (xDifference p q) (yDifference p q) := by
  rw [pointAddMixed_of_finite hq hp, Bool.eq_false_iff.2 hc]
  rfl

end MixedAdditionCases

theorem isZero_iff_val {a : Word} (ha : a.toNat < primeP) : isZero a = true ↔ val a = 0 := by
  rw [val_eq_zero ha, isZero, decide_eq_true_iff]
  rfl

/-- The tests of C and D are tests modulo P (R187). -/
theorem isZero_xDifference_iff {p q : Jacobian} (hp : IsCanonicalTriple p) :
    isZero (xDifference p q) = true ↔ val q.x * val p.z ^ 2 - val p.x = 0 := by
  rw [isZero_iff_val (xDifference_lt hp.1), xDifference_val hp.1]

theorem isZero_yDifference_iff {p q : Jacobian} (hp : IsCanonicalTriple p) :
    isZero (yDifference p q) = true ↔ val q.y * val p.z ^ 3 - val p.y = 0 := by
  rw [isZero_iff_val (yDifference_lt hp.2.1), yDifference_val hp.2.1]

/-- Added to itself with Z = 1, a point gives C = D = 0 (R191). -/
theorem differences_self {x y : Word} (hx : x.toNat < primeP) (hy : y.toNat < primeP) :
    xDifference ⟨x, y, 1⟩ ⟨x, y, 1⟩ = 0 ∧ yDifference ⟨x, y, 1⟩ ⟨x, y, 1⟩ = 0 := by
  have hone : mulMod 1 1 = 1 := mulMod_one one_toNat_lt_primeP
  unfold xDifference yDifference
  simp only [hone, mulMod_one hx, mulMod_one hy, subMod_self hx, subMod_self hy, and_self]

/-- Settles O50: each law is one case of R184 or R187. -/
theorem infinityAndSelfAdditionLaws : Obligations.InfinityAndSelfAdditionLaws := by
  unfold Obligations.InfinityAndSelfAdditionLaws
  refine ⟨fun p q hq hp => ?_, fun p q hp hq => ?_, fun p hp => ?_, fun x y hx hy => ?_⟩
  · rw [pointAddMixed_of_infinite_right ((isInfinity_iff q).2 hq), normal_of_finite (mt (isInfinity_iff p).1 hp)]
  · have hfinite := mt (isInfinity_iff q).1 hq
    rw [pointAddMixed_of_infinite_left hfinite ((isInfinity_iff p).2 hp), normal_of_finite hfinite]
  · exact pointDouble_of_infinite ((isInfinity_iff p).2 hp)
  · obtain ⟨hc, hd⟩ := differences_self hx hy
    exact pointAddMixed_of_same Bool.false_ne_true Bool.false_ne_true (by rw [hc]; rfl) (by rw [hd]; rfl)

/-! ### The two point commands (R186, R190) -/

/-- NC of a triple (R30). -/
theorem ncTriple_eq (e : Engine) (n : RegNum) : e.ncTriple n =
    decide (primeP ≤ (e.reg n).toNat ∨ primeP ≤ (e.reg (n + 1)).toNat ∨ primeP ≤ (e.reg (n + 2)).toNat) := by
  rw [Engine.ncTriple, ncSingle_eq, ncSingle_eq, ncSingle_eq, Bool.or_assoc, Bool.decide_or, Bool.decide_or]

section JacobianResult

variable {r : Jacobian} (hr : IsCanonicalTriple r) (s : State) (rd : RegNum) (f : Flags)

include hr

/-- A canonical result stands in its triple with the residues of its coordinates (R24, R25). -/
theorem holdsTriple_complete {x y z : ZMod primeP} (hx : val r.x = x) (hy : val r.y = y) (hz : val r.z = z) :
    HoldsTriple (s.complete (r.writes rd) f) rd x y z := by
  unfold HoldsTriple Jacobian.writes
  rw [reg_complete_triple_x, reg_complete_triple_y, reg_complete_triple_z]
  exact ⟨hx, hy, hz, hr⟩

/-- A canonical result reads back as it was written. -/
theorem jacobian_complete : (s.complete (r.writes rd) f).engine.jacobian rd = r := by
  obtain ⟨hx, hy, hz⟩ := hr
  have hregx := reg_complete_triple_x s rd r.x r.y r.z f
  have hregy := reg_complete_triple_y s rd r.x r.y r.z f
  have hregz := reg_complete_triple_z s rd r.x r.y r.z f
  unfold State.reg at hregx hregy hregz
  unfold Engine.jacobian Engine.field Jacobian.writes
  rw [hregx, hregy, hregz, canon_of_lt hx, canon_of_lt hy, canon_of_lt hz]

end JacobianResult

/-- The result (0, 0, 0) in its triple. -/
theorem holdsTriple_infinity (s : State) (rd : RegNum) (f : Flags) :
    HoldsTriple (s.complete (Jacobian.infinity.writes rd) f) rd 0 0 0 :=
  holdsTriple_complete infinity_canonical s rd f val_zero val_zero val_zero

/-- The result of the doubling formulas in its triple (R184). -/
theorem holdsTriple_doubleFormulas {p : Jacobian} (hp : IsCanonicalTriple p) (s : State) (rd : RegNum) (f : Flags) :
    let M := 3 * ((val p.x - val p.z ^ 2) * (val p.x + val p.z ^ 2))
    let S := 4 * (val p.x * val p.y ^ 2)
    HoldsTriple (s.complete ((doubleFormulas p).writes rd) f) rd (M ^ 2 - 2 * S)
      (M * (S - (M ^ 2 - 2 * S)) - 8 * val p.y ^ 4) (2 * (val p.y * val p.z)) := by
  obtain ⟨hx, hy, hz⟩ := doubleFormulas_val hp.1
  exact holdsTriple_complete (doubleFormulas_lt p) s rd f hx hy hz

/-- The general addition of R188 with the differences of R187, in the ring of integers modulo P. -/
theorem generalAdd_differences_val {p : Jacobian} (hp : IsCanonicalTriple p) (q : Jacobian) :
    let C := val q.x * val p.z ^ 2 - val p.x
    let D := val q.y * val p.z ^ 3 - val p.y
    let V := val p.x * C ^ 2
    let X3 := D ^ 2 - 2 * V - C ^ 3
    let r := generalAdd p (xDifference p q) (yDifference p q)
    val r.x = X3 ∧ val r.y = D * (V - X3) - val p.y * C ^ 3 ∧ val r.z = val p.z * C := by
  have h := generalAdd_val p (xDifference p q) (yDifference p q)
  rw [xDifference_val hp.1, yDifference_val hp.2.1] at h
  exact h

theorem wf_p256PointDouble_iff {rd ra : RegNum} :
    (Instr.p256PointDouble rd ra).wf = true ↔ rd.val ≤ 13 ∧ ra.val ≤ 13 := by
  simp [Instr.wf, RegNum.isTripleBase]

theorem wf_p256PointAddMixed_iff {rd ra rb : RegNum} :
    (Instr.p256PointAddMixed rd ra rb).wf = true ↔ rd.val ≤ 13 ∧ ra.val ≤ 13 ∧ rb.val ≤ 13 := by
  simp [Instr.wf, RegNum.isTripleBase, and_assoc]

/-- Settles O26: the two ways a doubling ends, over the coordinates the command reads. -/
theorem pointDoubleFormulas : Obligations.PointDoubleFormulas := by
  unfold Obligations.PointDoubleFormulas
  intro rd ra s
  constructor
  · intro hbase
    exact outOfRangeSpecifierFaults _ s (Bool.eq_false_iff.2 (mt wf_p256PointDouble_iff.1 (by omega)))
  · intro hrd hra
    refine ⟨_, exec_of_completes (wf_p256PointDouble_iff.2 ⟨hrd, hra⟩) rfl, ?value, rfl, rfl, ncTriple_eq s.engine ra,
      complete_keepsAllBut s _ _⟩
    case value =>
      have hp := jacobian_canonical s.engine ra
      simp -zeta only [writesOf, flagsOf, State.reg, ← val_field]
      intro X Y Z M S X3 Z3
      split
      next h =>
        rw [pointDouble_eq_infinity hp h]
        exact ⟨holdsTriple_infinity s rd _, rfl⟩
      next h =>
        obtain ⟨hz, hz3⟩ := not_or.1 h
        rw [pointDouble_eq_formulas hp hz hz3]
        exact ⟨holdsTriple_doubleFormulas hp s rd _,
          Bool.eq_false_iff.2 (mt (doubleFormulas_isInfinity_iff _).1 hz3)⟩

/-- Settles O27: the five cases of R187, over the coordinates the command reads. -/
theorem pointAddMixedFiveCases : Obligations.PointAddMixedFiveCases := by
  unfold Obligations.PointAddMixedFiveCases
  intro rd ra rb s
  constructor
  · intro hbase
    exact outOfRangeSpecifierFaults _ s (Bool.eq_false_iff.2 (mt wf_p256PointAddMixed_iff.1 (by omega)))
  · intro hrd hra hrb
    refine ⟨_, exec_of_completes (wf_p256PointAddMixed_iff.2 ⟨hrd, hra, hrb⟩) rfl, ?value, rfl, rfl, ?inf, ?nc,
      complete_keepsAllBut s _ _⟩
    case value =>
      have hp := jacobian_canonical s.engine ra
      have hq := jacobian_canonical s.engine rb
      simp -zeta only [writesOf, State.reg, ← val_field]
      intro X1 Y1 Z1 x2 y2 z2 C D M S V X3
      have hpinf : (s.engine.jacobian ra).isInfinity = true ↔ Z1 = 0 := isInfinity_iff_val hp.2.2
      have hqinf : (s.engine.jacobian rb).isInfinity = true ↔ z2 = 0 := isInfinity_iff_val hq.2.2
      have hC := isZero_xDifference_iff (q := s.engine.jacobian rb) hp
      have hD := isZero_yDifference_iff (q := s.engine.jacobian rb) hp
      split
      next hz2 =>
        rw [pointAddMixed_of_infinite_right (hqinf.2 hz2)]
        split
        next hz1 =>
          rw [normal_of_infinite (hpinf.2 hz1)]
          exact holdsTriple_infinity s rd _
        next hz1 =>
          rw [normal_of_finite (mt hpinf.1 hz1)]
          exact holdsTriple_complete hp s rd _ rfl rfl rfl
      next hz2 =>
        have hqf := mt hqinf.1 hz2
        split
        next hz1 =>
          rw [pointAddMixed_of_infinite_left hqf (hpinf.2 hz1), normal_of_finite hqf]
          exact holdsTriple_complete hq s rd _ rfl rfl rfl
        next hz1 =>
          have hpf := mt hpinf.1 hz1
          split
          next hsame =>
            rw [pointAddMixed_of_same hqf hpf (hC.2 hsame.1) (hD.2 hsame.2)]
            split
            next hz3 =>
              rw [pointDouble_eq_infinity hq (.inr hz3)]
              exact holdsTriple_infinity s rd _
            next hz3 =>
              rw [pointDouble_eq_formulas hq hz2 hz3]
              exact holdsTriple_doubleFormulas hq s rd _
          next hdiff =>
            split
            next hc =>
              rw [pointAddMixed_of_opposite hqf hpf (hC.2 hc) (mt hD.1 fun hd => hdiff ⟨hc, hd⟩)]
              exact holdsTriple_infinity s rd _
            next hc =>
              rw [pointAddMixed_of_general hqf hpf (mt hC.1 hc)]
              obtain ⟨hx, hy, hz⟩ := generalAdd_differences_val hp (s.engine.jacobian rb)
              exact holdsTriple_complete (generalAdd_lt _ _ _) s rd _ hx hy hz
    case inf =>
      rw [writesOf, Jacobian.writes, reg_complete_triple_z]
      rfl
    case nc =>
      change (s.engine.ncTriple ra || s.engine.ncTriple rb) = _
      rw [ncTriple_eq, ncTriple_eq, ← Bool.decide_or]
      simp only [or_assoc]
      rfl

/-! ### Points a triple represents (R180) -/

open WeierstrassCurve.Affine (Point)

/-- A triple is at infinity exactly when the point it represents is the identity (R181). -/
theorem val_z_eq_zero_iff {p : Jacobian} {A : p256.Point} (h : Represents p A) : val p.z = 0 ↔ A = 0 := by
  cases A with
  | zero => exact iff_of_true h rfl
  | some x y hxy =>
    obtain ⟨hz, -, -⟩ := h
    exact iff_of_false hz (Point.some_ne_zero hxy)

theorem isInfinity_iff_of_represents {p : Jacobian} {A : p256.Point} (hp : IsCanonicalTriple p)
    (h : Represents p A) : p.isInfinity = true ↔ A = 0 :=
  (isInfinity_iff_val hp.2.2).trans (val_z_eq_zero_iff h)

theorem infinity_represents_zero : Represents .infinity 0 := val_zero

/-- Normalising a triple keeps the point it represents (R182). -/
theorem normal_represents {p : Jacobian} {A : p256.Point} (hp : IsCanonicalTriple p) (h : Represents p A) :
    Represents p.normal A := by
  by_cases hinf : p.isInfinity = true
  · rw [normal_of_infinite hinf, (isInfinity_iff_of_represents hp h).1 hinf]
    exact infinity_represents_zero
  · rwa [normal_of_finite hinf]

theorem p256_negY (x y : ZMod primeP) : p256.negY x y = -y := by
  simp [p256]

theorem p256_addX (x₁ x₂ ℓ : ZMod primeP) : p256.addX x₁ x₂ ℓ = ℓ ^ 2 - x₁ - x₂ := by
  simp [p256]

theorem p256_addY (x₁ x₂ y₁ ℓ : ZMod primeP) :
    p256.addY x₁ x₂ y₁ ℓ = ℓ * (x₁ - p256.addX x₁ x₂ ℓ) - y₁ := by
  rw [WeierstrassCurve.Affine.addY, p256_negY, WeierstrassCurve.Affine.negAddY]
  ring

/-- The point `(x, y)` is its own negative exactly when `2y = 0`. -/
theorem p256_eq_negY_iff {x y : ZMod primeP} : y = p256.negY x y ↔ 2 * y = 0 := by
  rw [p256_negY, two_mul, eq_neg_iff_add_eq_zero]

section GroupLaw

variable [Fact (Nat.Prime primeP)] {x₁ y₁ x₂ y₂ : ZMod primeP}

/-- The chord and tangent law in Jacobian coordinates: `n` is the slope with the denominator `Z3` cleared. -/
theorem represents_add_of_slope {h₁ : p256.Nonsingular x₁ y₁} {h₂ : p256.Nonsingular x₂ y₂} {r : Jacobian}
    {n : ZMod primeP} (hxy : ¬ (x₁ = x₂ ∧ y₁ = p256.negY x₂ y₂)) (hz : val r.z ≠ 0)
    (hslope : p256.slope x₁ x₂ y₁ y₂ * val r.z = n) (hx : val r.x = n ^ 2 - (x₁ + x₂) * val r.z ^ 2)
    (hy : val r.y = n * (x₁ * val r.z ^ 2 - val r.x) - y₁ * val r.z ^ 3) :
    Represents r (Point.some x₁ y₁ h₁ + Point.some x₂ y₂ h₂) := by
  rw [Point.add_some hxy]
  refine ⟨hz, ?_, ?_⟩
  · rw [hx, ← hslope, p256_addX]
    ring
  · rw [hy, hx, ← hslope, p256_addY, p256_addX]
    ring

/-- The slope of the tangent. -/
theorem p256_slope_self_mul {x y : ZMod primeP} (hy : 2 * y ≠ 0) :
    p256.slope x x y y * (2 * y) = 3 * x ^ 2 - 3 := by
  have hden : y - p256.negY x y = 2 * y := by
    rw [p256_negY]
    ring
  rw [WeierstrassCurve.Affine.slope_of_Y_ne rfl (mt p256_eq_negY_iff.1 hy), hden, div_mul_cancel₀ _ hy]
  simp only [p256]
  ring

/-- The slope of the chord. -/
theorem p256_slope_mul_sub (hx : x₁ ≠ x₂) : p256.slope x₁ x₂ y₁ y₂ * (x₁ - x₂) = y₁ - y₂ := by
  rw [WeierstrassCurve.Affine.slope_of_X_ne hx, div_mul_cancel₀ _ (sub_ne_zero.2 hx)]

/-- The formulas of R184 follow the tangent, whose slope is `M / Z3` (R185). -/
theorem doubleFormulas_represents {p : Jacobian} {x y : ZMod primeP} {h : p256.Nonsingular x y}
    (hp : IsCanonicalTriple p) (hpA : Represents p (.some x y h)) (hy2 : 2 * y ≠ 0) :
    Represents (doubleFormulas p) (Point.some x y h + Point.some x y h) := by
  obtain ⟨hz, hx, hy⟩ := hpA
  obtain ⟨hX3, hY3, hZ3⟩ := doubleFormulas_val hp.1
  rw [hx, hy] at hX3 hY3
  rw [hy] at hZ3
  refine represents_add_of_slope (n := val p.z ^ 4 * (3 * x ^ 2 - 3)) (fun hsame => hy2 (p256_eq_negY_iff.1 hsame.2))
    ?z ?slope ?x3 ?y3
  case z =>
    have hfactor : val (doubleFormulas p).z = 2 * y * val p.z ^ 4 := by
      rw [hZ3]
      ring
    rw [hfactor]
    exact mul_ne_zero hy2 (pow_ne_zero 4 hz)
  case slope =>
    rw [hZ3]
    linear_combination val p.z ^ 4 * p256_slope_self_mul (x := x) hy2
  case x3 =>
    rw [hX3, hZ3]
    ring
  case y3 =>
    rw [hY3, hX3, hZ3]
    ring

/-- Doubling computes A + A in the group of the curve (R185): Z3 is 0 exactly when `2y = 0`. -/
theorem pointDouble_represents {p : Jacobian} {A : p256.Point} (hp : IsCanonicalTriple p) (hpA : Represents p A) :
    Represents (pointDouble p) (A + A) := by
  cases A with
  | zero =>
    rw [pointDouble_eq_infinity hp (.inl hpA)]
    exact infinity_represents_zero
  | some x y h =>
    obtain ⟨hz, -, hy⟩ := id hpA
    have hz3 : 2 * (val p.y * val p.z) = 2 * y * val p.z ^ 4 := by
      rw [hy]
      ring
    by_cases hy2 : 2 * y = 0
    · rw [pointDouble_eq_infinity hp (.inr (by rw [hz3, hy2, zero_mul])),
        Point.add_self_of_Y_eq (p256_eq_negY_iff.2 hy2)]
      exact infinity_represents_zero
    · rw [pointDouble_eq_formulas hp hz (hz3 ▸ mul_ne_zero hy2 (pow_ne_zero 4 hz))]
      exact doubleFormulas_represents hp hpA hy2

section FinitePoints

variable {p q : Jacobian} {h₁ : p256.Nonsingular x₁ y₁} {h₂ : p256.Nonsingular x₂ y₂} (hp : IsCanonicalTriple p)
  (hpA : Represents p (.some x₁ y₁ h₁)) (hqB : Represents q (.some x₂ y₂ h₂)) (hone : val q.z = 1)

include hp hpA hqB hone

/-- The differences C and D of R187 are those of the affine coordinates, with the denominators of P cleared. -/
theorem differences_val : val (xDifference p q) = (x₂ - x₁) * val p.z ^ 2 ∧
    val (yDifference p q) = (y₂ - y₁) * val p.z ^ 3 := by
  obtain ⟨-, hx₁, hy₁⟩ := hpA
  obtain ⟨-, hx₂, hy₂⟩ := hqB
  rw [xDifference_val hp.1, yDifference_val hp.2.1, hx₁, hy₁, hx₂, hy₂, hone]
  constructor <;> ring

/-- C and D are 0 exactly when the affine coordinates agree (R187). -/
theorem isZero_differences_iff : (isZero (xDifference p q) = true ↔ x₁ = x₂) ∧
    (isZero (yDifference p q) = true ↔ y₁ = y₂) := by
  obtain ⟨hC, hD⟩ := differences_val hp hpA hqB hone
  obtain ⟨hz, -, -⟩ := hpA
  rw [isZero_iff_val (xDifference_lt hp.1), isZero_iff_val (yDifference_lt hp.2.1), hC, hD,
    mul_eq_zero_iff_right (pow_ne_zero 2 hz), mul_eq_zero_iff_right (pow_ne_zero 3 hz), sub_eq_zero, sub_eq_zero]
  exact ⟨eq_comm, eq_comm⟩

/-- The formulas of R188 follow the chord, whose slope is `D / Z3`. -/
theorem generalAdd_represents (hx : x₁ ≠ x₂) : Represents (generalAdd p (xDifference p q) (yDifference p q))
    (Point.some x₁ y₁ h₁ + Point.some x₂ y₂ h₂) := by
  obtain ⟨hC, hD⟩ := differences_val hp hpA hqB hone
  obtain ⟨hX3, hY3, hZ3⟩ := generalAdd_val p (xDifference p q) (yDifference p q)
  obtain ⟨hz, hx₁, hy₁⟩ := hpA
  rw [hC] at hX3 hY3 hZ3
  rw [hD, hx₁] at hX3 hY3
  rw [hy₁] at hY3
  refine represents_add_of_slope (n := (y₂ - y₁) * val p.z ^ 3) (fun hsame => hx hsame.1) ?z ?slope ?x3 ?y3
  case z =>
    rw [hZ3]
    exact mul_ne_zero hz (mul_ne_zero (sub_ne_zero.2 hx.symm) (pow_ne_zero 2 hz))
  case slope =>
    rw [hZ3]
    linear_combination -val p.z ^ 3 * p256_slope_mul_sub (y₁ := y₁) (y₂ := y₂) hx
  case x3 =>
    rw [hX3, hZ3]
    ring
  case y3 =>
    rw [hY3, hX3, hZ3]
    ring

end FinitePoints

/-- Mixed addition computes A + B in the group of the curve, for Q with Z = 0 or 1 (R187 to R189). -/
theorem pointAddMixed_represents {p q : Jacobian} {A B : p256.Point} (hp : IsCanonicalTriple p)
    (hq : IsCanonicalTriple q) (hpA : Represents p A) (hqB : Represents q B) (hz : val q.z = 0 ∨ val q.z = 1) :
    Represents (pointAddMixed p q) (A + B) := by
  have hpinf := isInfinity_iff_of_represents hp hpA
  have hqinf := isInfinity_iff_of_represents hq hqB
  by_cases hB : B = 0
  · rw [pointAddMixed_of_infinite_right (hqinf.2 hB), hB, add_zero]
    exact normal_represents hp hpA
  have hqf := mt hqinf.1 hB
  by_cases hA : A = 0
  · rw [pointAddMixed_of_infinite_left hqf (hpinf.2 hA), hA, zero_add]
    exact normal_represents hq hqB
  have hpf := mt hpinf.1 hA
  have hone : val q.z = 1 := hz.resolve_left (mt (val_z_eq_zero_iff hqB).1 hB)
  obtain - | ⟨x₁, y₁, h₁⟩ := A
  · exact absurd rfl hA
  obtain - | ⟨x₂, y₂, h₂⟩ := B
  · exact absurd rfl hB
  obtain ⟨hC, hD⟩ := isZero_differences_iff hp hpA hqB hone
  by_cases hx : x₁ = x₂
  · by_cases hy : y₁ = y₂
    · rw [pointAddMixed_of_same hqf hpf (hC.2 hx) (hD.2 hy)]
      subst hx hy
      exact pointDouble_represents hq hqB
    · have hneg : y₁ = p256.negY x₂ y₂ := (WeierstrassCurve.Affine.Y_eq_of_X_eq h₁.1 h₂.1 hx).resolve_left hy
      rw [pointAddMixed_of_opposite hqf hpf (hC.2 hx) (mt hD.1 hy), Point.add_of_Y_eq hx hneg]
      exact infinity_represents_zero
  · rw [pointAddMixed_of_general hqf hpf (mt hC.1 hx)]
    exact generalAdd_represents hp hpA hqB hone hx

end GroupLaw

/-- Settles O51: a canonical result reads back as it was written, so the command does what `PointDouble` does. -/
theorem pointDoubleIsGroupDoubling : Obligations.PointDoubleIsGroupDoubling := by
  unfold Obligations.PointDoubleIsGroupDoubling
  intro _ rd ra s A hrd hra hA
  have hcanon := pointDouble_canonical (s.engine.jacobian ra)
  have hsum := pointDouble_represents (jacobian_canonical s.engine ra) hA
  refine ⟨_, exec_of_completes (wf_p256PointDouble_iff.2 ⟨hrd, hra⟩) rfl, ?_, isInfinity_iff_of_represents hcanon hsum⟩
  rwa [writesOf, jacobian_complete hcanon]

/-- Settles O52, as O51: the command does what `PointAddMixed` does. -/
theorem pointAddMixedIsGroupAddition : Obligations.PointAddMixedIsGroupAddition := by
  unfold Obligations.PointAddMixedIsGroupAddition
  intro _ rd ra rb s A B hrd hra hrb hA hB hz
  have hp := jacobian_canonical s.engine ra
  have hq := jacobian_canonical s.engine rb
  have hcanon := pointAddMixed_canonical hp hq
  have hzq : val (s.engine.jacobian rb).z = 0 ∨ val (s.engine.jacobian rb).z = 1 := by
    rwa [Engine.jacobian, val_field]
  have hsum := pointAddMixed_represents hp hq hA hB hzq
  refine ⟨_, exec_of_completes (wf_p256PointAddMixed_iff.2 ⟨hrd, hra, hrb⟩) rfl, ?_,
    isInfinity_iff_of_represents hcanon hsum⟩
  rwa [writesOf, jacobian_complete hcanon]

end Sys2Proof.Proofs

/-! PROOF. The scalar multiplication statements (spec/43_scalar_mult.md): the digit strings of `NafEncode`, what the
command writes, and the multiple it computes in the group of the curve. -/

namespace Sys2Proof.Proofs

open Machine Laws

/-! ### Non-adjacent forms (R200, R202) -/

/-- A digit string in non-adjacent form and the number it stands for: above a digit +1 or -1 the rest stands for an even
number, and the top digit is +1. -/
inductive IsNaf : List NafDigit → Nat → Prop where
  | nil : IsNaf [] 0
  | zero {ds : List NafDigit} {n : Nat} : n ≠ 0 → IsNaf ds n → IsNaf (.zero :: ds) (2 * n)
  | plusOne {ds : List NafDigit} {n : Nat} : IsNaf ds (2 * n) → IsNaf (.plusOne :: ds) (4 * n + 1)
  | minusOne {ds : List NafDigit} {n : Nat} : IsNaf ds (2 * (n + 1)) → IsNaf (.minusOne :: ds) (4 * n + 3)

theorem two_pow_mod_three_ne_zero (m : Nat) : 2 ^ m % 3 ≠ 0 := by
  induction m with
  | zero => decide
  | succ m ih => omega

namespace IsNaf

variable {ds : List NafDigit} {n : Nat}

/-- The digits re-sum to the number (R202 (a)). -/
theorem nafValue_eq (h : IsNaf ds n) : nafValue ds = n := by
  induction h with
  | nil => rfl
  | zero _ _ ih | plusOne _ ih | minusOne _ ih =>
    rw [nafValue, ih, NafDigit.value]
    push_cast
    ring

theorem eq_nil_iff (h : IsNaf ds n) : ds = [] ↔ n = 0 := by
  cases h <;> simp_all

/-- An even number has the lowest digit 0, or no digit at all. -/
theorem head_of_even (h : IsNaf ds n) (heven : n % 2 = 0) : ds[0]? = some .zero ∨ ds = [] := by
  cases h with
  | nil => exact .inr rfl
  | zero => exact .inl rfl
  | plusOne | minusOne => omega

/-- No two adjacent digits are non-zero (R202 (b)). -/
theorem nonAdjacent (h : IsNaf ds n) (i : Nat) :
    ds[i]? = some .zero ∨ ds[i + 1]? = some .zero ∨ ds.length ≤ i + 1 := by
  induction h generalizing i with
  | nil => simp
  | zero _ _ ih =>
    cases i with
    | zero => exact .inl rfl
    | succ i => simpa using ih i
  | plusOne h ih | minusOne h ih =>
    cases i with
    | zero => simpa using h.head_of_even (Nat.mul_mod_right 2 _)
    | succ i => simpa using ih i

/-- The top digit is +1 (R202 (c)). -/
theorem getLast?_eq (h : IsNaf ds n) (hn : n ≠ 0) : ds.getLast? = some .plusOne := by
  induction h with
  | nil => exact absurd rfl hn
  | zero hne _ ih => simp [List.getLast?_cons, ih hne]
  | @plusOne ds n h ih =>
    by_cases hrest : ds = []
    · rw [hrest]
      rfl
    · simp [List.getLast?_cons, ih (mt h.eq_nil_iff.2 hrest)]
  | minusOne _ ih => simp [List.getLast?_cons, ih (Nat.mul_ne_zero two_ne_zero (Nat.succ_ne_zero _))]

/-- `m` digits reach up to the alternating string 1010..., which stands for two thirds of `2 ^ m`. -/
theorem length_le_iff (h : IsNaf ds n) (m : Nat) : ds.length ≤ m ↔ 3 * n ≤ 2 ^ (m + 1) := by
  induction h generalizing m with
  | nil => simp
  | zero hne _ ih | plusOne _ ih | minusOne _ ih =>
    cases m with
    | zero => simp; omega
    | succ m =>
      have h3 := two_pow_mod_three_ne_zero m
      rw [List.length_cons, Nat.add_le_add_iff_right, ih, pow_succ, pow_succ _ (m + 1), pow_succ]
      omega

/-- A number of more than `b` bits has more than `b` digits (R202 (d)). -/
theorem lt_length_of_two_pow_le (h : IsNaf ds n) {b : Nat} (hn : 2 ^ b ≤ n) : b < ds.length := by
  have hpos : 0 < 2 ^ b := Nat.two_pow_pos b
  rw [← Nat.not_le, h.length_le_iff, pow_succ]
  omega

/-- A number of at most `b` bits has at most one digit more (R202 (d)). -/
theorem length_le_of_lt_two_pow (h : IsNaf ds n) {b : Nat} (hn : n < 2 ^ b) : ds.length ≤ b + 1 := by
  rw [h.length_le_iff, pow_succ, pow_succ]
  omega

end IsNaf

/-! ### The loop of `NafEncode` (R201) -/

theorem nafDigit_of_even {w : WideWord} (h : w.toNat % 2 = 0) : nafDigit w = .zero := by
  simp [nafDigit, BitVec.getLsbD, h]

theorem nafDigit_of_mod_four_eq_one {w : WideWord} (h : w.toNat % 4 = 1) : nafDigit w = .plusOne := by
  have h0 : w.toNat % 2 = 1 := by omega
  have h1 : w.toNat / 2 % 2 = 0 := by omega
  simp [nafDigit, BitVec.getLsbD, Nat.testBit_eq_decide_div_mod_eq, h0, h1]

theorem nafDigit_of_mod_four_eq_three {w : WideWord} (h : w.toNat % 4 = 3) : nafDigit w = .minusOne := by
  have h0 : w.toNat % 2 = 1 := by omega
  have h1 : w.toNat / 2 % 2 = 1 := by omega
  simp [nafDigit, BitVec.getLsbD, Nat.testBit_eq_decide_div_mod_eq, h0, h1]

/-- The working value after one pass. -/
def nafNext (w : WideWord) : WideWord := rightShiftOne (nafSubtract w (nafDigit w))

theorem nafNext_toNat (w : WideWord) : (nafNext w).toNat = (nafSubtract w (nafDigit w)).toNat / 2 :=
  (rightShiftHalves 257 _).1

/-- What one pass does: the digit and the next working value, by the two low bits. No pass overflows from 2^256 down. -/
theorem nafPass_cases {w : WideWord} (hw : w.toNat ≤ 2 ^ 256) :
    (nafDigit w = .zero ∧ w.toNat = 2 * (nafNext w).toNat) ∨
    (∃ m, nafDigit w = .plusOne ∧ w.toNat = 4 * m + 1 ∧ (nafNext w).toNat = 2 * m) ∨
    (∃ m, nafDigit w = .minusOne ∧ w.toNat = 4 * m + 3 ∧ (nafNext w).toNat = 2 * (m + 1)) := by
  obtain heven | hone | hthree : w.toNat % 2 = 0 ∨ w.toNat % 4 = 1 ∨ w.toNat % 4 = 3 := by omega
  · have hd := nafDigit_of_even heven
    refine .inl ⟨hd, ?_⟩
    rw [nafNext_toNat, hd, nafSubtract]
    omega
  · have hd := nafDigit_of_mod_four_eq_one hone
    refine .inr (.inl ⟨w.toNat / 4, hd, by omega, ?_⟩)
    rw [nafNext_toNat, hd, nafSubtract]
    bv_omega
  · have hd := nafDigit_of_mod_four_eq_three hthree
    refine .inr (.inr ⟨w.toNat / 4, hd, by omega, ?_⟩)
    rw [nafNext_toNat, hd, nafSubtract]
    bv_omega

theorem bitLength_pos_iff {n : Nat} (v : BitVec n) : mostSignificantBitLength v ≥ 1 ↔ v.toNat ≠ 0 := by
  unfold mostSignificantBitLength
  split <;> omega

/-- The loop ends when the working value is 0. -/
theorem nafLoop_of_zero (n : Nat) {w : WideWord} (hw : w.toNat = 0) : nafLoop n w = [] := by
  cases n with
  | zero => rfl
  | succ n => exact if_neg (mt (bitLength_pos_iff w).1 (not_not.2 hw))

theorem nafLoop_succ (n : Nat) {w : WideWord} (hw : w.toNat ≠ 0) :
    nafLoop (n + 1) w = nafDigit w :: nafLoop n (nafNext w) := if_pos ((bitLength_pos_iff w).2 hw)

/-- A number that `n + 1` digits reach leaves, after a pass, a number that `n` digits reach (R202 (d)). -/
theorem nafNext_fits {n : Nat} {w : WideWord} (hw : w.toNat ≤ 2 ^ 256) (hfuel : 3 * w.toNat ≤ 2 ^ (n + 2)) :
    (nafNext w).toNat ≤ 2 ^ 256 ∧ 3 * (nafNext w).toNat ≤ 2 ^ (n + 1) := by
  rw [pow_succ, pow_succ] at hfuel
  rw [pow_succ]
  obtain ⟨-, hval⟩ | ⟨m, -, hval, hnext⟩ | ⟨m, -, hval, hnext⟩ := nafPass_cases hw <;> omega

/-- The loop writes the working value in non-adjacent form, when `n` digits reach it (R201, R202). -/
theorem nafLoop_isNaf {n : Nat} {w : WideWord} (hw : w.toNat ≤ 2 ^ 256) (hfuel : 3 * w.toNat ≤ 2 ^ (n + 1)) :
    IsNaf (nafLoop n w) w.toNat := by
  induction n generalizing w with
  | zero =>
    have h0 : w.toNat = 0 := by omega
    rw [nafLoop_of_zero 0 h0, h0]
    exact .nil
  | succ n ih =>
    by_cases h0 : w.toNat = 0
    · rw [nafLoop_of_zero _ h0, h0]
      exact .nil
    obtain ⟨hle, hfit⟩ := nafNext_fits hw hfuel
    have hrest := ih hle hfit
    rw [nafLoop_succ n h0]
    obtain ⟨hd, hval⟩ | ⟨m, hd, hval, hnext⟩ | ⟨m, hd, hval, hnext⟩ := nafPass_cases hw <;> rw [hd, hval]
    · exact .zero (by omega) hrest
    · exact .plusOne (hnext ▸ hrest)
    · exact .minusOne (hnext ▸ hrest)

/-- `NafEncode` writes its scalar in non-adjacent form (R202). -/
theorem nafEncode_isNaf (k : Word) : IsNaf (nafEncode k) k.toNat := by
  have hwiden : (k.setWidth 257).toNat = k.toNat := BitVec.toNat_setWidth_of_le (by decide)
  have hk := k.isLt
  have h := nafLoop_isNaf (n := Config.nafMax) (w := k.setWidth 257) (by omega) (by rw [hwiden, Config.nafMax]; omega)
  rwa [hwiden] at h

/-- `NafEncode` never writes more than 257 digits (R202 (d)). -/
theorem length_nafEncode_le (k : Word) : (nafEncode k).length ≤ 257 :=
  (nafEncode_isNaf k).length_le_of_lt_two_pow k.isLt

/-- The count is the bit length or one more (R202 (d)). -/
theorem length_nafEncode_bounds (k : Word) : mostSignificantBitLength k ≤ (nafEncode k).length ∧
    (nafEncode k).length ≤ mostSignificantBitLength k + 1 := by
  have h := nafEncode_isNaf k
  by_cases hk : k = 0
  · subst hk
    have hlen : mostSignificantBitLength (0 : Word) = 0 := mostSignificantBitLength_zero 256
    rw [hlen]
    exact ⟨Nat.zero_le _, h.length_le_of_lt_two_pow (by decide)⟩
  · obtain ⟨-, -, hlow, hhigh⟩ := (bitLengthBoundsTheValue 256 k).2 hk
    exact ⟨Nat.le_of_pred_lt (h.lt_length_of_two_pow_le hlow), h.length_le_of_lt_two_pow hhigh⟩

/-- 256 digits do not reach `(2^257 + 1) / 3`, the least number above two thirds of `2^256` (R202 (d)). -/
theorem lt_length_nafEncode {k : Word} (hk : (2 ^ 257 + 1) / 3 ≤ k.toNat) : 256 < (nafEncode k).length := by
  rw [← Nat.not_le, (nafEncode_isNaf k).length_le_iff]
  omega

/-- Settles O48: each part is a property of the number in non-adjacent form that `NafEncode` writes. -/
theorem nafEncodeIsNonAdjacentForm : Obligations.NafEncodeIsNonAdjacentForm := by
  unfold Obligations.NafEncodeIsNonAdjacentForm
  intro k
  have h := nafEncode_isNaf k
  have hzero : k.toNat = 0 ↔ k = 0 := BitVec.toNat_inj (y := 0)
  obtain ⟨hlow, hhigh⟩ := length_nafEncode_bounds k
  exact ⟨h.nafValue_eq, h.nonAdjacent, h.eq_nil_iff.trans hzero, fun hk => h.getLast?_eq (mt hzero.1 hk),
    ⟨hlow, hhigh, length_nafEncode_le k⟩, fun hk => (length_nafEncode_le k).antisymm (lt_length_nafEncode hk)⟩

/-- Settles O49, by running the encoder. -/
theorem nafOfListedScalars : Obligations.NafOfListedScalars := by
  unfold Obligations.NafOfListedScalars
  decide +kernel

/-! ### The command (R206) -/

theorem wf_p256ScalarMultNaf_iff {rd ra rb : RegNum} :
    (Instr.p256ScalarMultNaf rd ra rb).wf = true ↔ rd.val ≤ 14 ∧ rb.val ≤ 14 := by
  simp [Instr.wf, RegNum.isPairBase]

/-- NC of a pair (R30). -/
theorem ncPair_eq (e : Engine) (n : RegNum) :
    e.ncPair n = decide (primeP ≤ (e.reg n).toNat ∨ primeP ≤ (e.reg (n + 1)).toNat) :=
  ncSingle_or e n (n + 1)

/-- The base point the command reads is the pair modulo P (R144, R206). -/
theorem affine_eq_of_mod {e : Engine} {n : RegNum} {x y : Word} (hx : x.toNat = (e.reg n).toNat % primeP)
    (hy : y.toNat = (e.reg (n + 1)).toNat % primeP) : e.affine n = ⟨x, y⟩ := by
  rw [Engine.affine, eq_of_toNat_mod (field_toNat e n) hx, eq_of_toNat_mod (field_toNat e (n + 1)) hy]

/-- Settles O28: infinity is written as `(0, 0)`, any other result as it is. -/
theorem scalarMultWritesAffineResult : Obligations.ScalarMultWritesAffineResult := by
  unfold Obligations.ScalarMultWritesAffineResult
  intro rd ra rb s
  constructor
  · intro hbase
    exact outOfRangeSpecifierFaults _ s (Bool.eq_false_iff.2 (mt wf_p256ScalarMultNaf_iff.1 (by omega)))
  · intro hrd hrb
    refine ⟨_, exec_of_completes (wf_p256ScalarMultNaf_iff.2 ⟨hrd, hrb⟩) rfl, ?value, rfl, rfl, ncPair_eq s.engine rb,
      complete_keepsAllBut s _ _⟩
    case value =>
      intro x y hx hy
      have hbase : s.engine.affine rb = ⟨x, y⟩ := affine_eq_of_mod hx hy
      rw [writesOf, flagsOf, reg_complete_pair_low, reg_complete_pair_high, State.complete_flags, hbase,
        Engine.single, ← State.reg]
      constructor
      · intro hnone
        rw [hnone]
        exact ⟨rfl, rfl, rfl⟩
      · intro r hsome
        rw [hsome]
        exact ⟨rfl, rfl, rfl⟩

/-! ### Affine points of the curve (R220) -/

open WeierstrassCurve.Affine (Point)

/-- An affine result and the point of the curve it stands for: no result for the identity, canonical coordinates for
any other point (R25, R205). -/
def IsAffineOf : Option Affine → p256.Point → Prop
  | none, A => A = 0
  | some r, A => r.x.toNat < primeP ∧ r.y.toNat < primeP ∧ ∃ h, A = .some (val r.x) (val r.y) h

/-- Canonical coordinates are the result for their point. -/
theorem isAffineOf_some {p : Affine} {x y : ZMod primeP} {h : p256.Nonsingular x y} (hx : p.x.toNat < primeP)
    (hy : p.y.toNat < primeP) (hpx : val p.x = x) (hpy : val p.y = y) : IsAffineOf (some p) (.some x y h) := by
  subst hpx hpy
  exact ⟨hx, hy, h, rfl⟩

/-- Only the empty result stands for the identity. -/
theorem isAffineOf_zero_iff {r : Option Affine} : IsAffineOf r 0 ↔ r = none := by
  cases r with
  | none => exact iff_of_true rfl rfl
  | some r =>
    refine iff_of_false ?_ (Option.some_ne_none r)
    rintro ⟨-, -, h, hzero⟩
    exact Point.some_ne_zero h hzero.symm

/-- A result for a finite point holds its coordinates. -/
theorem IsAffineOf.eq_some {r : Option Affine} {x y : ZMod primeP} {h : p256.Nonsingular x y}
    (hr : IsAffineOf r (.some x y h)) :
    ∃ p, r = some p ∧ val p.x = x ∧ val p.y = y ∧ p.x.toNat < primeP ∧ p.y.toNat < primeP := by
  cases r with
  | none => exact absurd hr (Point.some_ne_zero h)
  | some p =>
    obtain ⟨hx, hy, hp, heq⟩ := hr
    obtain ⟨hxv, hyv⟩ := Point.some.inj heq
    exact ⟨p, rfl, hxv.symm, hyv.symm, hx, hy⟩

/-- A point has one affine result, bit for bit. -/
theorem IsAffineOf.unique {r r' : Option Affine} {A : p256.Point} (h : IsAffineOf r A) (h' : IsAffineOf r' A) :
    r = r' := by
  cases A with
  | zero => rw [isAffineOf_zero_iff.1 h, isAffineOf_zero_iff.1 h']
  | some x y hxy =>
    obtain ⟨p, rfl, hpx, hpy, hpxlt, hpylt⟩ := h.eq_some
    obtain ⟨q, rfl, hqx, hqy, hqxlt, hqylt⟩ := h'.eq_some
    have hx : p.x = q.x := (val_inj hpxlt hqxlt).1 (hpx.trans hqx.symm)
    have hy : p.y = q.y := (val_inj hpylt hqylt).1 (hpy.trans hqy.symm)
    exact congrArg₂ (fun x y => some (Affine.mk x y)) hx hy

theorem compareUnsigned_eq_zero_iff {u v : Word} : compareUnsigned u v = 0 ↔ u = v := by
  unfold compareUnsigned
  split
  next hlt => simpa using fun h : u = v => hlt.ne (congrArg _ h)
  next hge => simp [BitVec.toNat_inj]

theorem coeffB_lt : coeffB.toNat < primeP := by decide +kernel

theorem p256_discriminant_ne_zero : p256.Δ ≠ 0 := by decide +kernel

/-- `IsOnCurve` decides the equation of the curve, which has no singular point (R1, R220). -/
theorem isOnCurve_iff_nonsingular {p : Affine} (hx : p.x.toNat < primeP) :
    isOnCurve p = true ↔ p256.Nonsingular (val p.x) (val p.y) := by
  have hcube := mulMod_lt (mulMod p.x p.x) p.x
  have hdiff := subMod_lt hcube (times3_lt hx)
  rw [isOnCurve, decide_eq_true_iff, compareUnsigned_eq_zero_iff,
    ← val_inj (mulMod_lt _ _) (addMod_lt hdiff coeffB_lt), val_addMod hdiff coeffB_lt, val_subMod hcube (times3_lt hx),
    val_times3 hx, val_mulMod, val_mulMod, val_mulMod,
    ← WeierstrassCurve.Affine.equation_iff_nonsingular_of_Δ_ne_zero p256_discriminant_ne_zero,
    WeierstrassCurve.Affine.equation_iff]
  simp only [p256]
  constructor <;> intro h <;> linear_combination h

/-- The canonical points on the curve (R220) are the results of finite points. -/
theorem exists_isAffineOf_of_isOnCurve {p : Affine} (hx : p.x.toNat < primeP) (hy : p.y.toNat < primeP)
    (hon : isOnCurve p = true) : ∃ A, IsAffineOf (some p) A :=
  ⟨_, isAffineOf_some (h := (isOnCurve_iff_nonsingular hx).1 hon) hx hy rfl rfl⟩

/-- A result that stands for a point is on the curve. -/
theorem isOnCurve_of_isAffineOf {p : Affine} {A : p256.Point} (h : IsAffineOf (some p) A) : isOnCurve p = true := by
  obtain ⟨hx, -, hp, -⟩ := h
  exact (isOnCurve_iff_nonsingular hx).2 hp

/-! ### Scalar multiplication in the group of the curve (R204, R205, R207) -/

theorem val_one_ne_zero : val 1 ≠ 0 := mt (val_eq_zero one_toNat_lt_primeP).1 (by decide)

/-- With Z = 1 a triple represents the affine point of its coordinates (R180). -/
theorem represents_of_z_one {x y : Word} (h : p256.Nonsingular (val x) (val y)) :
    Represents ⟨x, y, 1⟩ (.some (val x) (val y) h) :=
  ⟨val_one_ne_zero, by rw [val_one, one_pow, mul_one], by rw [val_one, one_pow, mul_one]⟩

/-- Leaving Jacobian coordinates keeps the point (R205). -/
theorem toAffine_isAffineOf {p : Jacobian} {A : p256.Point} (hp : IsCanonicalTriple p) (hpA : Represents p A) :
    IsAffineOf (toAffine p) A := by
  have hinf : p.isInfinity = true ↔ val p.z = 0 := isInfinity_iff_val hp.2.2
  cases A with
  | zero =>
    rw [toAffine, if_pos (hinf.2 hpA)]
    rfl
  | some x y h =>
    obtain ⟨hz, hx, hy⟩ := hpA
    have hinv := val_mul_val_invMod hz
    rw [toAffine, if_neg (mt hinf.1 hz)]
    refine isAffineOf_some (mulMod_lt _ _) (mulMod_lt _ _) ?x ?y
    case x =>
      rw [val_mulMod, val_mulMod, hx]
      linear_combination x * (val p.z * val (invMod p.z) + 1) * hinv
    case y =>
      rw [val_mulMod, val_mulMod, val_mulMod, hy]
      linear_combination y * ((val p.z * val (invMod p.z)) ^ 2 + val p.z * val (invMod p.z) + 1) * hinv

section ScalarLoop

variable {g : Affine} {G : p256.Point} (hg : IsAffineOf (some g) G)

include hg

theorem basePoint_canonical : IsCanonicalTriple (basePoint g) := by
  obtain ⟨hx, hy, -⟩ := hg
  exact ⟨hx, hy, one_toNat_lt_primeP⟩

theorem negatedBasePoint_canonical : IsCanonicalTriple (negatedBasePoint g) := by
  obtain ⟨hx, hy, -⟩ := hg
  exact ⟨hx, subMod_lt zero_toNat_lt_primeP hy, one_toNat_lt_primeP⟩

/-- `Bp` represents the base point (R204). -/
theorem basePoint_represents : Represents (basePoint g) G := by
  obtain ⟨-, -, h, rfl⟩ := hg
  exact represents_of_z_one h

/-- `Bn` represents its negative (R204). -/
theorem negatedBasePoint_represents : Represents (negatedBasePoint g) (-G) := by
  obtain ⟨-, hy, h, rfl⟩ := hg
  have hneg : val (subMod 0 g.y) = p256.negY (val g.x) (val g.y) := by
    rw [val_subMod zero_toNat_lt_primeP hy, val_zero, zero_sub, p256_negY]
  rw [Point.neg_some]
  simp only [← hneg]
  exact represents_of_z_one _

theorem scalarPass_canonical {acc : Jacobian} (d : NafDigit) : IsCanonicalTriple (scalarPass g acc d) := by
  have hdouble := pointDouble_canonical acc
  cases d with
  | plusOne => exact pointAddMixed_canonical hdouble (basePoint_canonical hg)
  | minusOne => exact pointAddMixed_canonical hdouble (negatedBasePoint_canonical hg)
  | zero => exact hdouble

variable [Fact (Nat.Prime primeP)]

/-- One pass doubles the accumulator and adds the digit's multiple of the base point (R205). -/
theorem scalarPass_represents {acc : Jacobian} {A : p256.Point} (hacc : IsCanonicalTriple acc)
    (hA : Represents acc A) (d : NafDigit) : Represents (scalarPass g acc d) (A + A + d.value • G) := by
  have hcanon := pointDouble_canonical acc
  have hdouble := pointDouble_represents hacc hA
  cases d with
  | plusOne =>
    rw [NafDigit.value, one_zsmul]
    exact pointAddMixed_represents hcanon (basePoint_canonical hg) hdouble (basePoint_represents hg) (.inr val_one)
  | minusOne =>
    rw [NafDigit.value, neg_one_zsmul]
    exact pointAddMixed_represents hcanon (negatedBasePoint_canonical hg) hdouble (negatedBasePoint_represents hg)
      (.inr val_one)
  | zero =>
    rw [NafDigit.value, zero_zsmul, add_zero]
    exact hdouble

/-- Run over a digit string, top digit first, the passes make the multiple the string stands for (R200, R205). -/
theorem scalarPasses_represent (ds : List NafDigit) :
    IsCanonicalTriple (ds.reverse.foldl (scalarPass g) .infinity) ∧
      Represents (ds.reverse.foldl (scalarPass g) .infinity) (nafValue ds • G) := by
  induction ds with
  | nil =>
    rw [nafValue, zero_zsmul]
    exact ⟨infinity_canonical, infinity_represents_zero⟩
  | cons d ds ih =>
    obtain ⟨hcanon, hrep⟩ := ih
    have hsum : nafValue (d :: ds) • G = nafValue ds • G + nafValue ds • G + d.value • G := by
      rw [nafValue, add_zsmul, two_mul, add_zsmul, add_comm]
    rw [List.reverse_cons, List.foldl_concat, hsum]
    exact ⟨scalarPass_canonical hg d, scalarPass_represents hg hcanon hrep d⟩

/-- `ScalarMult` computes the multiple in the group of the curve, for every scalar (R207). -/
theorem scalarMult_isAffineOf (k : Word) : IsAffineOf (scalarMult k g) (k.toNat • G) := by
  obtain ⟨hcanon, hrep⟩ := scalarPasses_represent hg (nafEncode k)
  rw [(nafEncode_isNaf k).nafValue_eq, natCast_zsmul] at hrep
  exact toAffine_isAffineOf hcanon hrep

end ScalarLoop

/-- The result written to its pair (R206). -/
theorem holdsPair_complete {r : Affine} {x y : ZMod primeP} (hx : val r.x = x) (hy : val r.y = y)
    (hxlt : r.x.toNat < primeP) (hylt : r.y.toNat < primeP) (s : State) (rd : RegNum) (f : Flags) :
    HoldsPair (s.complete (pairWrites rd r.x r.y) f) rd x y := by
  unfold HoldsPair
  rw [reg_complete_pair_low, reg_complete_pair_high]
  exact ⟨hx, hy, hxlt, hylt⟩

/-- Settles O53: the pair and INF show which point the result stands for. -/
theorem scalarMultIsGroupMultiple : Obligations.ScalarMultIsGroupMultiple := by
  unfold Obligations.ScalarMultIsGroupMultiple
  intro _ rd ra rb s hrd hrb hon
  have hxlt := field_lt s.engine rb
  have hylt := field_lt s.engine (rb + 1)
  have hx : val (s.engine.affine rb).x = val (s.reg rb) := val_field s.engine rb
  have hy : val (s.engine.affine rb).y = val (s.reg (rb + 1)) := val_field s.engine (rb + 1)
  have h : p256.Nonsingular (val (s.reg rb)) (val (s.reg (rb + 1))) :=
    hx ▸ hy ▸ (isOnCurve_iff_nonsingular hxlt).1 hon
  have hmul := scalarMult_isAffineOf (isAffineOf_some (h := h) hxlt hylt hx hy) (s.reg ra)
  refine ⟨_, exec_of_completes (wf_p256ScalarMultNaf_iff.2 ⟨hrd, hrb⟩) rfl, h, ?_⟩
  rw [writesOf, flagsOf, State.complete_flags, Engine.single, ← State.reg]
  generalize (s.reg ra).toNat • Point.some _ _ h = A at hmul
  cases A with
  | zero =>
    rw [isAffineOf_zero_iff.1 hmul]
    exact ⟨holdsPair_complete val_zero val_zero zero_toNat_lt_primeP zero_toNat_lt_primeP s rd _, rfl⟩
  | some x y hxy =>
    obtain ⟨r, hr, hrx, hry, hrxlt, hrylt⟩ := hmul.eq_some
    rw [hr]
    exact ⟨holdsPair_complete hrx hry hrxlt hrylt s rd _, rfl⟩

/-- Settles O54: both orders compute `(a * b) * G`, and a point has one affine result. -/
theorem keyAgreementIsSymmetric : Obligations.KeyAgreementIsSymmetric := by
  unfold Obligations.KeyAgreementIsSymmetric
  intro a b g p q hx hy hon
  have := Fact.mk prime_P
  obtain ⟨G, hG⟩ := exists_isAffineOf_of_isOnCurve hx hy hon
  constructor
  · have hzero : IsAffineOf (scalarMult 0 g) (0 • G) := scalarMult_isAffineOf hG 0
    rw [zero_nsmul] at hzero
    exact isAffineOf_zero_iff.1 hzero
  · intro hp hq
    have hpA : IsAffineOf (some p) (a.toNat • G) := hp ▸ scalarMult_isAffineOf hG a
    have hqA : IsAffineOf (some q) (b.toNat • G) := hq ▸ scalarMult_isAffineOf hG b
    have hab := scalarMult_isAffineOf hqA a
    rw [smul_comm] at hab
    exact ⟨isOnCurve_of_isAffineOf hpA, isOnCurve_of_isAffineOf hqA, hab.unique (scalarMult_isAffineOf hpA b)⟩

end Sys2Proof.Proofs

/-! PROOF. The point-on-curve test (spec/44_validate.md): the curve equation in the ring modulo P, and the verdict
of the command. -/

namespace Sys2Proof.Proofs

open Machine Laws

/-- The curve has no singular point, so its points are the solutions of its equation (R1). -/
theorem p256_nonsingular_iff {x y : ZMod primeP} : p256.Nonsingular x y ↔ y ^ 2 = x ^ 3 - 3 * x + val coeffB := by
  rw [← WeierstrassCurve.Affine.equation_iff_nonsingular_of_Δ_ne_zero p256_discriminant_ne_zero,
    WeierstrassCurve.Affine.equation_iff]
  simp only [p256]
  constructor <;> intro h <;> linear_combination h

/-- The verdict on the pair the command reads is about the register contents modulo P (R144, R220). -/
theorem isOnCurve_affine (e : Engine) (n : RegNum) : isOnCurve (e.affine n) =
    decide (val (e.reg (n + 1)) ^ 2 = val (e.reg n) ^ 3 - 3 * val (e.reg n) + val coeffB) := by
  have hlt : (e.affine n).x.toNat < primeP := field_lt e n
  rw [Bool.eq_iff_iff, decide_eq_true_iff, isOnCurve_iff_nonsingular hlt, p256_nonsingular_iff, Engine.affine,
    val_field, val_field]

theorem wf_p256PointValidate_iff {ra : RegNum} : (Instr.p256PointValidate ra).wf = true ↔ ra.val ≤ 14 :=
  decide_eq_true_iff

/-- Settles O29: the command has no destination, and its flags are the verdict and NC. -/
theorem validateDecidesCurveEquation : Obligations.ValidateDecidesCurveEquation := by
  unfold Obligations.ValidateDecidesCurveEquation
  intro ra s
  constructor
  · intro hra
    exact outOfRangeSpecifierFaults _ s (Bool.eq_false_iff.2 (mt wf_p256PointValidate_iff.1 (by omega)))
  · intro hra
    refine ⟨_, exec_of_completes (wf_p256PointValidate_iff.2 hra) rfl, ?flags, complete_keepsAllBut s _ _⟩
    case flags => exact congrArg₂ Flags.ofVerdict (isOnCurve_affine s.engine ra) (ncPair_eq s.engine ra)

end Sys2Proof.Proofs

/-! PROOF. The exception statements (spec/60_exceptions.md): legality comes before operand values, and only a reset
changes ERR of a faulted engine. -/

namespace Sys2Proof.Proofs

open Machine Laws

/-! ### Legality before operand values (R236) -/

/-- Settles O8: every illegal word raises ILLEGAL_CMD, a `p256_fieldinvert` word with the rest. -/
theorem illegalWordBeatsInverseOfZero : Obligations.IllegalWordBeatsInverseOfZero := by
  unfold Obligations.IllegalWordBeatsInverseOfZero
  intro s w rest h herr _ hillegal
  obtain ⟨t, ht, hcode, -⟩ := illegalWordRaisesIllegalCmd s w rest h herr hillegal
  exact ⟨t, ht, hcode⟩

/-! ### The faulted state is left only by a reset (R32, R234, R235) -/

/-- CTRL stands at one offset of the map (R54). -/
theorem windowReg_eq_ctrl_iff {off : Nat} : windowReg off = .ctrl ↔ off = 0x208 := by
  by_cases hoff : off = 0x208
  · subst hoff
    exact iff_of_true rfl rfl
  · refine iff_of_false ?_ hoff
    unfold windowReg
    rw [if_neg hoff]
    split_ifs <;> exact nofun

/-- The faulted state ignores a CMD write completely (R234). -/
theorem writeCmd_of_faulted {s : State} (h : s.engine.err ≠ 0) (w : CmdWord) : writeCmd w s = .next s := by
  unfold writeCmd
  rw [if_pos ((faulted_eq_true s.engine).2 h)]

/-- A bus access is only answered, or is the window access at its distance from `BASE` (R14, R240). -/
theorem busAccess_cases (addr : Nat) (a : Access) (s : State) :
    busAccess addr a s = .next (s.respond .notAddressed) ∨
    ∃ off, addr = Config.base + off ∧ busAccess addr a s = windowAccess off a s := by
  by_cases h : Config.base ≤ addr
  · obtain ⟨off, rfl⟩ := Nat.exists_eq_add_of_le h
    exact .inr ⟨off, rfl, busAccess_base_add off a s⟩
  · exact .inl (busAccess_of_outside (.inl (Nat.lt_of_not_ge h)) a s)

/-- The write of a soft reset: 32 bits to CTRL with bit 0 set (R35, R261). -/
def IsSoftReset (off : Nat) (a : Access) : Prop := off = 0x208 ∧ ∃ v, a = .write (.b32 v) ∧ v.getLsbD 0 = true

/-- The events that reset an engine: the write of a soft reset while accesses are accepted, at the window or on the bus,
and the release of an asserted reset input (R260, R261). -/
def IsReset (ev : HostEvent) (inReset : Bool) : Prop :=
  (∃ off a, IsSoftReset off a ∧ inReset = false ∧ (ev = .window off a ∨ ev = .bus (Config.base + off) a)) ∨
  (inReset = true ∧ ev = .resetLine false)

section ErrChanges

variable {s t : State} (herr : t.engine.err ≠ s.engine.err)
include herr

theorem writeCtrl_of_err_ne {v : BitVec 32} (h : s.writeCtrl v = t) :
    v.getLsbD 0 = true ∧ t.engine = Engine.reset := by
  unfold State.writeCtrl at h
  split at h <;> subst h
  next hbit => exact ⟨hbit, s.resetEngine_engine⟩
  · exact absurd rfl herr

theorem driveReset_of_err_ne {asserted : Bool} (h : s.driveReset asserted = t) :
    s.inReset = true ∧ asserted = false ∧ t.engine = Engine.reset := by
  unfold State.driveReset at h
  split at h
  · exact absurd (h ▸ rfl) herr
  next hreleased =>
    split at h <;> subst h
    next hreset => exact ⟨hreset, Bool.eq_false_iff.2 hreleased, rfl⟩
    · exact absurd rfl herr

variable (hfault : s.engine.err ≠ 0)
include hfault

/-- In the faulted state a limb write leaves ERR, a CMD write is ignored, and STATUS, ID and the reserved words ignore
every write: CTRL is left. -/
theorem writeReg_of_err_ne {r : WindowReg} {v : BitVec 32} (h : writeReg r v s = .next t) :
    r = .ctrl ∧ v.getLsbD 0 = true ∧ t.engine = Engine.reset := by
  cases r with
  | ctrl => exact ⟨rfl, writeCtrl_of_err_ne herr (Host.Outcome.next.inj h)⟩
  | cmd =>
    obtain rfl := Host.Outcome.next.inj ((writeCmd_of_faulted hfault v).symm.trans h)
    exact absurd rfl herr
  | limb | status | id | reserved =>
    obtain rfl := Host.Outcome.next.inj h
    exact absurd rfl herr

theorem windowAccess_of_err_ne {off : Nat} {a : Access} (h : windowAccess off a s = .next t) :
    IsSoftReset off a ∧ s.inReset = false ∧ t.engine = Engine.reset := by
  obtain ⟨r, hw⟩ | ⟨v, ha, -, -, hreset, hw⟩ := windowAccess_cases off a s <;> rw [hw] at h
  · obtain rfl := Host.Outcome.next.inj h
    exact absurd rfl herr
  · obtain ⟨hctrl, hbit, ht⟩ := writeReg_of_err_ne (s := s.respond .written) herr hfault h
    exact ⟨⟨windowReg_eq_ctrl_iff.1 hctrl, v, ha, hbit⟩, hreset, ht⟩

/-- The one event that changes ERR of a faulted engine is a reset. -/
theorem perform_of_err_ne {ev : HostEvent} (h : perform ev s = .next t) :
    IsReset ev s.inReset ∧ t.engine = Engine.reset := by
  cases ev with
  | window off a =>
    obtain ⟨hsoft, hreset, ht⟩ := windowAccess_of_err_ne herr hfault h
    exact ⟨.inl ⟨off, a, hsoft, hreset, .inl rfl⟩, ht⟩
  | bus addr a =>
    obtain hb | ⟨off, rfl, hb⟩ := busAccess_cases addr a s
    · obtain rfl := Host.Outcome.next.inj (hb.symm.trans h)
      exact absurd rfl herr
    · obtain ⟨hsoft, hreset, ht⟩ := windowAccess_of_err_ne herr hfault (hb.symm.trans h)
      exact ⟨.inl ⟨off, a, hsoft, hreset, .inr rfl⟩, ht⟩
  | resetLine asserted =>
    obtain ⟨hreset, rfl, ht⟩ := driveReset_of_err_ne herr (Host.Outcome.next.inj h)
    exact ⟨.inr ⟨hreset, rfl⟩, ht⟩

theorem step_of_err_ne (h : step s = .next t) :
    ∃ ev rest, s.host = ev :: rest ∧ IsReset ev s.inReset ∧ t.engine = Engine.reset := by
  cases hhost : s.host with
  | nil =>
    obtain rfl := Host.Outcome.next.inj ((step_idle hhost).symm.trans h)
    exact absurd rfl herr
  | cons ev rest =>
    unfold step at h
    rw [hhost] at h
    exact ⟨ev, rest, rfl, perform_of_err_ne (s := { s with host := rest }) herr hfault h⟩

end ErrChanges

/-- Settles O9: the step that changes ERR of a faulted engine performs a reset, by one of the three events. -/
theorem faultedStateLeftOnlyByReset : Obligations.FaultedStateLeftOnlyByReset := by
  unfold Obligations.FaultedStateLeftOnlyByReset
  intro s t hfault h herr
  obtain ⟨ev, rest, hhost, hreset, ht⟩ := step_of_err_ne herr hfault h
  refine ⟨ht ▸ reset_holdsResetValues, ?_⟩
  obtain ⟨off, a, ⟨rfl, v, rfl, hbit⟩, hout, rfl | rfl⟩ | ⟨hin, rfl⟩ := hreset
  · exact .inl ⟨v, rest, hbit, hout, .inl hhost⟩
  · exact .inl ⟨v, rest, hbit, hout, .inr hhost⟩
  · exact .inr ⟨hin, rest, hhost⟩

end Sys2Proof.Proofs

/-! PROOF. The reset and hazard statements (spec/70_reset_and_hazards.md): the destination registers of a command make no
difference to its values and flags, and what the reset input does. -/

namespace Sys2Proof.Proofs

open Machine Laws

/-! ### Operand latching (R266) -/

/-- Writes to registers that are all different are read back as they were given, in order. -/
theorem map_reg_writeAll (e : Engine) {ws : List (RegNum × Word)} (h : (ws.map Prod.fst).Nodup) :
    (ws.map Prod.fst).map (e.writeAll ws).reg = ws.map Prod.snd := by
  induction ws generalizing e with
  | nil => rfl
  | cons w ws ih =>
    rw [List.map_cons, List.nodup_cons] at h
    obtain ⟨hnotMem, hnodup⟩ := h
    rw [Engine.writeAll_cons, List.map_cons, List.map_cons, List.map_cons, ih _ hnodup,
      Engine.reg_writeAll_of_notMem _ _ _ hnotMem, Engine.reg_setReg, if_pos rfl]

/-- The registers of a destination pair or triple are all different, whatever its base is (R23, R24). -/
theorem dests_nodup (i : Instr) : i.dests.Nodup := by
  cases i with
  | p256PointValidate => exact List.nodup_nil
  | bigintAdd256 | p256ModReduce | p256FieldAdd | p256FieldMult | p256FieldInvert => exact List.nodup_singleton _
  | bigintMult256 rd | p256ScalarMultNaf rd => simp [Instr.dests, (reg_add_one_ne rd).symm]
  | p256PointDouble rd | p256PointAddMixed rd =>
    simp [Instr.dests, (reg_add_one_ne rd).symm, (reg_add_two_ne rd).symm, (reg_add_two_ne_add_one rd).symm]

/-- The destination registers of a completed command hold the values it wrote, in order, whatever they overlap. -/
theorem dests_complete_writesOf (i : Instr) (s : State) (f : Flags) :
    i.dests.map (s.complete (writesOf s.engine i) f).reg = (writesOf s.engine i).map Prod.snd := by
  rw [← writesOf_regs s.engine i]
  exact map_reg_writeAll s.engine (by rw [writesOf_regs]; exact dests_nodup i)

section Destination

/-! Values, flags and the fault INV_ZERO come from the latched operands; the destination base enters none of them. -/

variable (e : Engine) (i : Instr) (d : RegNum)

theorem writesOf_withDest_values : (writesOf e (i.withDest d)).map Prod.snd = (writesOf e i).map Prod.snd := by
  cases i <;> rfl

theorem flagsOf_withDest : flagsOf e (i.withDest d) = flagsOf e i := by
  cases i <;> rfl

theorem invertsZero_withDest : invertsZero e (i.withDest d) = invertsZero e i := by
  cases i <;> rfl

end Destination

/-- Settles O32: both commands invert 0 or both complete, and then the destinations of each hold the values written. -/
theorem destinationOverlapIsHarmless : Obligations.DestinationOverlapIsHarmless := by
  unfold Obligations.DestinationOverlapIsHarmless
  intro i d s t t' _ hwf hwf' ht ht'
  obtain rfl := (exec_next_iff i s t).1 ht
  obtain rfl := (exec_next_iff (i.withDest d) s t').1 ht'
  have hzero := invertsZero_withDest s.engine i d
  cases h0 : invertsZero s.engine i with
  | true =>
    rw [outcomeOf_of_invertsZero hwf h0, outcomeOf_of_invertsZero hwf' (hzero.trans h0)]
    exact ⟨rfl, rfl, fun herr => absurd herr (raise_err_ne_zero s _)⟩
  | false =>
    rw [outcomeOf_of_completes hwf h0, outcomeOf_of_completes hwf' (hzero.trans h0), dests_complete_writesOf,
      dests_complete_writesOf]
    exact ⟨by simp, (flagsOf_withDest s.engine i d).symm, fun _ => (writesOf_withDest_values s.engine i d).symm⟩

/-! ### The reset input (R260) -/

/-- A step whose next event is at the reset input drives the input. -/
theorem step_resetLine {s : State} {asserted : Bool} {rest : List HostEvent}
    (h : s.host = .resetLine asserted :: rest) : step s = .next ({ s with host := rest }.driveReset asserted) := by
  unfold step
  rw [h]
  rfl

/-- Releasing an asserted reset input resets the engine (R260). -/
theorem driveReset_release {s : State} (h : s.inReset = true) :
    s.driveReset false = { s.resetEngine with inReset := false } := by
  unfold State.driveReset
  rw [if_neg Bool.false_ne_true, if_pos h]

/-- While the reset input is asserted, an access inside the window is answered with a bus error and does nothing else
(R260, U25; log entry 6). -/
theorem step_window_of_inReset {s : State} {off : Nat} {a : Access} {rest : List HostEvent} (hreset : s.inReset = true)
    (hoff : off < 0x400) (h : s.host = .window off a :: rest) : step s = .next (answered s rest .busError) := by
  rw [step_window h]
  unfold windowAccess
  rw [if_neg (by unfold Config.windowSize; omega), if_pos hreset]
  rfl

/-- Settles O19. -/
theorem hardwareResetInput : Obligations.HardwareResetInput := by
  unfold Obligations.HardwareResetInput
  refine ⟨rfl, ?assert, ?access, ?release⟩
  case assert =>
    intro s rest h
    exact ⟨_, step_resetLine h, rfl, rfl⟩
  case access =>
    intro s off a rest hreset hoff h
    exact ⟨_, step_window_of_inReset hreset hoff h, answered_engine s rest _, answeredWith_answered s rest _⟩
  case release =>
    intro s rest hreset h
    refine ⟨_, step_resetLine h, ?_⟩
    rw [driveReset_release (s := { s with host := rest }) hreset]
    exact ⟨rfl, rfl, reset_holdsResetValues⟩

end Sys2Proof.Proofs
